-- ==== Sys2Proof/Word.lean ====
section
/-! DEFINITION. Sys2Proof/Word.lean: the word types of WSHC (spec/00_scope.md R6, R7, R8). -/
namespace Sys2Proof

/-- A byte of a header, a key or a payload; bit 7 is the most significant (R7). -/
abbrev Byte := BitVec 8

/-- A word of the host bus: 32 bits (spec/20_memory.md R50). -/
abbrev Word := BitVec 32

/-- The host bus address HADDR[15:2]: a word address, so no access can be misaligned (R50, R56). -/
abbrev HAddr := BitVec 14

end Sys2Proof
end

