-- ==== Sys2Proof/Syntax.lean ====
section
/-! DEFINITION. Sys2Proof/Syntax.lean: the commands of WSHC, one constructor per row of
spec/opcode_table.json (spec/30_encoding.md R70 to R74). -/
namespace Sys2Proof

/-- A command. No command has an operand field (R70): the arguments of the reserved rows are only the
bits of the word that the row leaves free, so that every word is some instruction's (R71). -/
inductive Instr where
  | nop
  | decode
  | encode
  | mask
  | sreset
  /-- OP 0x4 to 0x7 with RSVD = 0; `lo` is OP[1:0]. -/
  | reserved4to7 (lo : BitVec 2)
  /-- OP 0x8 to 0xB with RSVD = 0; `lo` is OP[1:0]. -/
  | reserved8toB (lo : BitVec 2)
  /-- OP 0xC to 0xD with RSVD = 0; `lo` is OP[0]. -/
  | reservedCtoD (lo : BitVec 1)
  /-- OP 0xE with RSVD = 0. -/
  | reservedE
  /-- The table's last row: any word with RSVD (w[31:4]) not 0. -/
  | reservedRsvd (op : BitVec 4) (rsvd : BitVec 28)
  deriving DecidableEq, Repr

/-- The five reserved rows (R74). -/
def Instr.isReserved : Instr → Bool
  | .nop => false
  | .decode => false
  | .encode => false
  | .mask => false
  | .sreset => false
  | .reserved4to7 _ => true
  | .reserved8toB _ => true
  | .reservedCtoD _ => true
  | .reservedE => true
  | .reservedRsvd _ _ => true

end Sys2Proof
end

