-- ==== Sys2Proof/WellFormed.lean ====
section
/-! DEFINITION. Sys2Proof/WellFormed.lean: which terms of `Instr` stand for a command word. -/
namespace Sys2Proof

/-- The one check: the table's last row is "matched last", so it stands only for words whose RSVD field
is not 0 (spec/30_encoding.md R72, last row). -/
def Instr.wf : Instr → Bool
  | .nop => true
  | .decode => true
  | .encode => true
  | .mask => true
  | .sreset => true
  | .reserved4to7 _ => true
  | .reserved8toB _ => true
  | .reservedCtoD _ => true
  | .reservedE => true
  | .reservedRsvd _ rsvd => rsvd != 0

end Sys2Proof
end

