-- ==== Sys2Proof/Decode.lean ====
section
/-! DEFINITION. Sys2Proof/Decode.lean: the command decoder, total on every word (spec/30_encoding.md R71),
and the encoder of command words, both from the opcode map R72 and spec/opcode_table.json. The decoder
rejects no word: every word that is no command is one of the five reserved rows (R74). -/
namespace Sys2Proof

/-- A row of the opcode table: the word matches when its bits under `mask` are those of `pattern`. -/
structure Row where
  pattern : Word
  mask : Word
  deriving DecidableEq, Repr

abbrev Row.Matches (r : Row) (w : Word) : Prop := w &&& r.mask = r.pattern

def rowNop : Row := { pattern := 0x00000000, mask := 0xFFFFFFFF }
def rowDecode : Row := { pattern := 0x00000001, mask := 0xFFFFFFFF }
def rowEncode : Row := { pattern := 0x00000002, mask := 0xFFFFFFFF }
def rowMask : Row := { pattern := 0x00000003, mask := 0xFFFFFFFF }
def rowSreset : Row := { pattern := 0x0000000F, mask := 0xFFFFFFFF }
def rowReserved4to7 : Row := { pattern := 0x00000004, mask := 0xFFFFFFFC }
def rowReserved8toB : Row := { pattern := 0x00000008, mask := 0xFFFFFFFC }
def rowReservedCtoD : Row := { pattern := 0x0000000C, mask := 0xFFFFFFFE }
def rowReservedE : Row := { pattern := 0x0000000E, mask := 0xFFFFFFFF }
/-- The table's last row, which every word matches. -/
def rowReservedRsvd : Row := { pattern := 0x00000000, mask := 0x00000000 }

/-- The table in its order: "Decode the rows in order; the first match wins." -/
def opcodeTable : List Row :=
  [rowNop, rowDecode, rowEncode, rowMask, rowSreset, rowReserved4to7, rowReserved8toB, rowReservedCtoD,
    rowReservedE, rowReservedRsvd]

/-- The OP field, w[3:0] (R70). -/
def opField (w : Word) : BitVec 4 := w.extractLsb' 0 4

/-- The RSVD field, w[31:4] (R70). -/
def rsvdField (w : Word) : BitVec 28 := w.extractLsb' 4 28

/-- The command a CMD word selects (R71, R72), row by row. -/
def decode (w : Word) : Instr :=
  if rowNop.Matches w then .nop
  else if rowDecode.Matches w then .decode
  else if rowEncode.Matches w then .encode
  else if rowMask.Matches w then .mask
  else if rowSreset.Matches w then .sreset
  else if rowReserved4to7.Matches w then .reserved4to7 (w.extractLsb' 0 2)
  else if rowReserved8toB.Matches w then .reserved8toB (w.extractLsb' 0 2)
  else if rowReservedCtoD.Matches w then .reservedCtoD (w.extractLsb' 0 1)
  else if rowReservedE.Matches w then .reservedE
  else .reservedRsvd (opField w) (rsvdField w)

/-- The command word of an instruction (R72). -/
def encode : Instr → Word
  | .nop => 0x00000000
  | .decode => 0x00000001
  | .encode => 0x00000002
  | .mask => 0x00000003
  | .sreset => 0x0000000F
  | .reserved4to7 lo => 0#28 ++ 0b01#2 ++ lo
  | .reserved8toB lo => 0#28 ++ 0b10#2 ++ lo
  | .reservedCtoD lo => 0#28 ++ 0b110#3 ++ lo
  | .reservedE => 0x0000000E
  | .reservedRsvd op rsvd => rsvd ++ op

/-- The 32-bit command word whose low `nbits` bits are those of `w` and whose others are 0. A command is
one word (R70), bit 0 of the table being bit 0 of the word. -/
def tableWord (nbits w : Nat) : Word := BitVec.ofNat 32 (w % 2 ^ nbits)

/-- The instruction the decoder reads from a row's bits, numbered as spec/opcode_table.json numbers them
(notes/assumptions/8.md). The decoder rejects no word. -/
def decodeTableWord (nbits w : Nat) : Option Instr := some (decode (tableWord nbits w))

end Sys2Proof
end

