-- ==== Sys2Proof/Config.lean ====
section
/-! DEFINITION. Sys2Proof/Config.lean: what an instance of WSHC fixes (spec/00_scope.md R6) and the one
value the spec leaves free (spec/10_state.md R40). -/
namespace Sys2Proof

/-- The parameters of one instance. `PBUF_SIZE` is the only one the spec leaves OPEN (R6, D15). -/
structure Config where
  pbufSize : Nat
  deriving DecidableEq, Repr

/-- The values R6 allows for `PBUF_SIZE`: a multiple of 4 in 4..61440. -/
abbrev Config.legal (c : Config) : Prop :=
  c.pbufSize % 4 = 0 ∧ 4 ≤ c.pbufSize ∧ c.pbufSize ≤ 61440

/-- The reference value of R6, which the spec's vectors use. DESIGN CHOICE for `State.reset`
(notes/assumptions/1.md). -/
def Config.reference : Config := { pbufSize := 4096 }

/-- What PBUF byte `a` holds after power-on number `k` until it is written: "unspecified after power-on
reset. A model gives each byte a free draw, fixed until written." (R40; notes/assumptions/2.md). -/
opaque Config.pbufDraw (k a : Nat) : Byte

end Sys2Proof
end

