-- ==== Sys2Proof/Machine/State.lean ====
section
/-! DEFINITION. Sys2Proof/Machine/State.lean: the state of WSHC (spec/10_state.md R20), the records its
operations pass (spec/00_scope.md R11), and the state after power-on reset (R40). -/
namespace Sys2Proof.Machine

/-- The four flag bits STATUS[19:16], "written together" (R26). -/
structure Flags where
  nonmin : Bool
  lenMsb : Bool
  opcUnknown : Bool
  opcControl : Bool
  deriving DecidableEq, Repr

/-- STATUS by its fields (R25). Its other bits are reserved, read 0, and no access can write them
(notes/assumptions/10.md). -/
structure Status where
  code : BitVec 4
  need : BitVec 4
  flags : Flags
  deriving DecidableEq, Repr

/-- A mask key: 4 bytes, `k0` the first on the wire (R30). -/
structure MaskKey where
  k0 : Byte
  k1 : Byte
  k2 : Byte
  k3 : Byte
  deriving DecidableEq, Repr

/-- The abstract header record `hdr` of R11. -/
structure Header where
  fin : Bool
  opcode : BitVec 4
  isMasked : Bool
  mask : Option MaskKey
  contentLen : BitVec 64
  deriving DecidableEq, Repr

/-- "Its mask is present iff `is_masked` = 1." (R11). -/
abbrev Header.wf (h : Header) : Prop := h.mask.isSome = h.isMasked

/-- What `decodeHeader` answers (spec/41_header_codec.md R101). -/
inductive DecodeResult where
  | incomplete (need : Nat)
  | ok (h : Header) (headerLen : Nat) (lclass : BitVec 2) (nonmin : Bool)
  deriving DecidableEq, Repr

/-- A header buffer, IBUF or OBUF: 16 bytes (R35, R37). -/
abbrev Buf := Vector Byte 16

/-- The written bytes of PBUF: (offset, byte) cells, offsets strictly rising. An offset that is not listed
has no written value (notes/assumptions/3.md). -/
abbrev Memory := List Host.Cell

/-- What the world outside can do to WSHC between commands: a bus access of one word
(spec/20_memory.md R50), or the reset input RST_N asserted and released
(spec/70_reset_and_hazards.md R160, R161; notes/assumptions/7.md). -/
inductive HostOp where
  | read (a : HAddr)
  | write (a : HAddr) (v : Word)
  | powerOnReset
  deriving DecidableEq, Repr

/-- The state: the tuple of R20, then the model's own four fields. -/
structure State where
  fin : Bool
  opcode : BitVec 4
  masked : Bool
  /-- LEN_HI ++ LEN_LO (R29). -/
  contentLen : BitVec 64
  maskKey : Word
  headerLen : BitVec 4
  lclass : BitVec 2
  status : Status
  maskPhase : BitVec 2
  ibuf : Buf
  ibufAvail : BitVec 5
  obuf : Buf
  obufLen : BitVec 5
  pStart : Word
  pCount : Word
  pbuf : Memory
  /-- The model's own: this instance's parameters, which nothing changes (notes/assumptions/1.md). -/
  cfg : Config
  /-- The model's own: which power-on's draw the unwritten PBUF bytes hold (notes/assumptions/2.md). -/
  powerOns : Nat
  /-- The model's own: the host's accesses still to come, the next one first (notes/assumptions/4.md). -/
  pending : List HostOp
  /-- The model's own: what the host's reads have returned, newest first (notes/assumptions/5.md). -/
  observed : List Word
  deriving DecidableEq, Repr

/-- No fault exists: "WSHC has no exceptions, traps or fault states." (spec/60_exceptions.md R140, R150;
notes/assumptions/15.md). -/
inductive Fault where
  deriving DecidableEq, Repr

/-- The one refusal, which the host's interface asks for. -/
inductive Refusal where
  /-- Raised by an arm of `exec` whose instruction has no meaning yet; no arm does. Safe: the model stops. -/
  | notModelled (mnemonic : String)
  deriving DecidableEq, Repr

/-- All flags clear. -/
def Flags.clear : Flags := { nonmin := false, lenMsb := false, opcUnknown := false, opcControl := false }

/-- STATUS = 0x00000000. -/
def Status.clear : Status := { code := 0, need := 0, flags := Flags.clear }

/-- The state when RST_N is released for the time numbered `k` on an instance with parameters `cfg`
(R40, R161): every register, IBUF and OBUF 0, and no PBUF byte written. -/
def State.powerOn (cfg : Config) (k : Nat) (pending : List HostOp) : State where
  fin := false
  opcode := 0
  masked := false
  contentLen := 0
  maskKey := 0
  headerLen := 0
  lclass := 0
  status := Status.clear
  maskPhase := 0
  ibuf := Vector.replicate 16 0
  ibufAvail := 0
  obuf := Vector.replicate 16 0
  obufLen := 0
  pStart := 0
  pCount := 0
  pbuf := []
  cfg := cfg
  powerOns := k
  pending := pending
  observed := []

/-- The machine right after reset, with nothing pending (R40; notes/assumptions/1.md, 2.md, 8.md). -/
def State.reset : State := State.powerOn Config.reference 0 []

end Sys2Proof.Machine
end

