-- ==== Sys2Proof/Machine/Ops.lean ====
section
/-! DEFINITION. Sys2Proof/Machine/Ops.lean: the named operations over PBUF, the header buffers and STATUS
that the meanings share. WSHC takes no exception (spec/60_exceptions.md R145): what takes that place is
`setStatus`, the `status(code, need)` primitive of R141. -/
namespace Sys2Proof.Machine

/-! ### PBUF cells -/

/-- The value written at offset `a`, if one was. -/
def Memory.lookup : Memory → Nat → Option Byte
  | [], _ => none
  | (b, v) :: m, a => if a = b then some v else Memory.lookup m a

/-- Write `v` at offset `a`, keeping the offsets strictly rising. -/
def Memory.insert : Memory → Nat → Byte → Memory
  | [], a, v => [(a, v)]
  | (b, u) :: m, a, v =>
    if a < b then (a, v) :: (b, u) :: m
    else if a = b then (a, v) :: m
    else (b, u) :: Memory.insert m a v

/-- Write a list of bytes from offset `a` up. -/
def Memory.insertList (m : Memory) (a : Nat) : List Byte → Memory
  | [] => m
  | v :: vs => Memory.insertList (Memory.insert m a v) (a + 1) vs

/-- Every offset of `m` is above `a`, and they rise strictly. -/
def Memory.risingAbove : Nat → Memory → Bool
  | _, [] => true
  | a, (b, _) :: m => decide (a < b) && Memory.risingAbove b m

/-- The canonical form: offsets strictly rising, so each is listed once (notes/assumptions/3.md). -/
def Memory.wf : Memory → Bool
  | [] => true
  | (b, _) :: m => Memory.risingAbove b m

/-- Every offset of `m` lies inside a PBUF of `n` bytes. -/
def Memory.within (n : Nat) (m : Memory) : Bool := m.all (fun c => decide (c.1 < n))

/-! ### PBUF bytes -/

/-- What a PBUF byte that nothing has written reads as: its power-on draw (spec/10_state.md R40;
notes/assumptions/2.md). -/
def unwrittenByte (s : State) (a : Nat) : Byte := Config.pbufDraw s.powerOns a

/-- `PBUF[a]`: the byte written there, or the power-on draw, "fixed until written" (R34, R40). -/
def pbufByte (s : State) (a : Nat) : Byte := (Memory.lookup s.pbuf a).getD (unwrittenByte s a)

/-- PBUF[a .. a+n). -/
def pbufBytes (s : State) (a : Nat) : Nat → List Byte
  | 0 => []
  | n + 1 => pbufByte s a :: pbufBytes s (a + 1) n

/-- `PBUF[a + j] <- bytes[j]` for every j. -/
def writePbuf (a : Nat) (bytes : List Byte) (s : State) : State :=
  { s with pbuf := Memory.insertList s.pbuf a bytes }

/-! ### Byte lanes and header buffers -/

/-- Lane `j` of a word, bits [8j+7:8j] (spec/20_memory.md R54). -/
def lane (w : Word) (j : Nat) : Byte := w.extractLsb' (8 * j) 8

/-- The word whose lanes 0 to 3 are the given bytes (R54). -/
def ofLanes (b0 b1 b2 b3 : Byte) : Word := b3 ++ b2 ++ b1 ++ b0

/-- Byte `i` of a header buffer. Every index the rules use is below 16 (notes/assumptions/11.md). -/
def Buf.byte (b : Buf) (i : Nat) : Byte := b[i]?.getD 0

/-- Word `k` of a buffer window (R59, R60). -/
def Buf.word (b : Buf) (k : Nat) : Word :=
  ofLanes (Buf.byte b (4 * k)) (Buf.byte b (4 * k + 1)) (Buf.byte b (4 * k + 2)) (Buf.byte b (4 * k + 3))

/-- Store word `w` as word `k` of a buffer (R59). -/
def Buf.storeWord (b : Buf) (k : Nat) (w : Word) : Buf :=
  (((b.setIfInBounds (4 * k) (lane w 0)).setIfInBounds (4 * k + 1) (lane w 1)).setIfInBounds
    (4 * k + 2) (lane w 2)).setIfInBounds (4 * k + 3) (lane w 3)

/-- The buffer that holds `bytes` from byte 0 on and 0 in the rest (R37, R107). -/
def Buf.ofBytes (bytes : List Byte) : Buf := Vector.ofFn (fun k => bytes[k.val]?.getD 0)

/-! ### STATUS (spec/60_exceptions.md R141, R142) -/

def codeOk : BitVec 4 := 0
def codeIncomplete : BitVec 4 := 1
def codeBadCmd : BitVec 4 := 2
def codeRange : BitVec 4 := 3

/-- `status(code, need)`: writes CODE and NEED and leaves the flags (R141). -/
def setStatus (code need : BitVec 4) (s : State) : State :=
  { s with status := { s.status with code := code, need := need } }

/-- The explicit flag writes of R102 and R107: all four together (R26). -/
def setFlags (f : Flags) (s : State) : State :=
  { s with status := { s.status with flags := f } }

/-- STATUS as the host reads it (R25). -/
def Status.word (st : Status) : Word :=
  0#12 ++ BitVec.ofBool st.flags.opcControl ++ BitVec.ofBool st.flags.opcUnknown
    ++ BitVec.ofBool st.flags.lenMsb ++ BitVec.ofBool st.flags.nonmin ++ 0#4 ++ st.need ++ 0#4 ++ st.code

/-! ### Reset -/

/-- Every state element of R20 but PBUF to its reset value (R40; spec/43_control.md R131). -/
def clearAllButPbuf (s : State) : State :=
  { s with
    fin := false, opcode := 0, masked := false, contentLen := 0, maskKey := 0, headerLen := 0, lclass := 0,
    status := Status.clear, maskPhase := 0, ibuf := Vector.replicate 16 0, ibufAvail := 0,
    obuf := Vector.replicate 16 0, obufLen := 0, pStart := 0, pCount := 0 }

/-- Power-on reset: as `clearAllButPbuf`, and PBUF unspecified anew (spec/70_reset_and_hazards.md R161,
R162; notes/assumptions/7.md). -/
def powerOnReset (s : State) : State :=
  { clearAllButPbuf s with pbuf := [], powerOns := s.powerOns + 1 }

end Sys2Proof.Machine
end

