-- ==== Sys2Proof/Machine/Flags.lean ====
section
/-! DEFINITION. Sys2Proof/Machine/Flags.lean: the opcode predicates, the minimality test and the four STATUS
flags (spec/30_encoding.md R87, R88; spec/10_state.md R25, R26). -/
namespace Sys2Proof.Machine

/-- `isControl(op) = op in {0x8, 0x9, 0xA}` (R88). -/
def isControl (op : BitVec 4) : Bool := op == 0x8#4 || op == 0x9#4 || op == 0xA#4

/-- `isKnown(op) = op in {0x0, 0x1, 0x2, 0x8, 0x9, 0xA}` (R88). -/
def isKnown (op : BitVec 4) : Bool :=
  op == 0x0#4 || op == 0x1#4 || op == 0x2#4 || op == 0x8#4 || op == 0x9#4 || op == 0xA#4

/-- A length written in a wider form than its value needs (R87); `ext` is the extended length's width. -/
def nonmin (ext : Nat) (len : BitVec 64) : Bool :=
  (decide (ext = 2) && decide (len.toNat < 126)) || (decide (ext = 8) && decide (len.toNat < 65536))

/-- The flags a DECODE that ends OK and an ENCODE write (spec/41_header_codec.md R102, R107). -/
def headerFlags (nm : Bool) (contentLen : BitVec 64) (opcode : BitVec 4) : Flags where
  nonmin := nm
  lenMsb := contentLen.getLsbD 63
  opcUnknown := !isKnown opcode
  opcControl := isControl opcode

end Sys2Proof.Machine
end

