-- ==== Sys2Proof/Machine/Operands.lean ====
section
/-! DEFINITION. Sys2Proof/Machine/Operands.lean: what the commands read (spec/30_encoding.md R73): the wire
fields of a header (R75 to R78), the length widths (R77, R84, R85), the abstract header the registers hold
(spec/10_state.md R31) and the bytes of the mask key (R30). -/
namespace Sys2Proof.Machine

/-! ### Wire fields -/

/-- Byte 0 bit 7 (R75). -/
def wireFin (b0 : Byte) : Bool := b0.getLsbD 7

/-- Byte 0 bits 3:0 (R75). Bits 6:4 are RSV, which nothing reads (R86). -/
def wireOpcode (b0 : Byte) : BitVec 4 := b0.extractLsb' 0 4

/-- Byte 1 bit 7 (R76). -/
def wireMasked (b1 : Byte) : Bool := b1.getLsbD 7

/-- Byte 1 bits 6:0 (R76). -/
def wireLen7 (b1 : Byte) : BitVec 7 := b1.extractLsb' 0 7

/-- `ext(len7)`: the width in bytes of the extended length (R77). -/
def ext (len7 : BitVec 7) : Nat := if len7 = 126 then 2 else if len7 = 127 then 8 else 0

/-- `header_len = 2 + ext + (4 if MASK = 1 else 0)` (R80), "a function of byte 1 alone" (R82). -/
def headerLenOf (b1 : Byte) : Nat := 2 + ext (wireLen7 b1) + if wireMasked b1 then 4 else 0

/-- `be16(b0, b1) = zext_64(b0 ++ b1)` (spec/00_scope.md R9). -/
def be16 (b0 b1 : Byte) : BitVec 64 := (b0 ++ b1).setWidth 64

/-- `be64(b0, ..., b7) = b0 ++ b1 ++ ... ++ b7` (R9). -/
def be64 (b0 b1 b2 b3 b4 b5 b6 b7 : Byte) : BitVec 64 := b0 ++ b1 ++ b2 ++ b3 ++ b4 ++ b5 ++ b6 ++ b7

/-- The length the header at the start of a buffer gives (R77). -/
def wireLen (ib : Buf) : BitVec 64 :=
  let len7 := wireLen7 (Buf.byte ib 1)
  if ext len7 = 0 then len7.setWidth 64
  else if ext len7 = 2 then be16 (Buf.byte ib 2) (Buf.byte ib 3)
  else be64 (Buf.byte ib 2) (Buf.byte ib 3) (Buf.byte ib 4) (Buf.byte ib 5) (Buf.byte ib 6) (Buf.byte ib 7)
    (Buf.byte ib 8) (Buf.byte ib 9)

/-- The four bytes from buffer byte `i` on, as a key (R78). -/
def keyAt (ib : Buf) (i : Nat) : MaskKey where
  k0 := Buf.byte ib i
  k1 := Buf.byte ib (i + 1)
  k2 := Buf.byte ib (i + 2)
  k3 := Buf.byte ib (i + 3)

/-! ### Length widths -/

/-- `lenClass`, the width selection (R84, with the boundary of spec/90_conflicts.md C1). -/
def lenClass (len : BitVec 64) : BitVec 2 :=
  if len.toNat ≤ 125 then 0 else if len.toNat ≤ 65535 then 1 else 2

/-- The extended bytes of a width class: `ext(0) = 0`, `ext(1) = 2`, `ext(2) = 8` (R39, R106). -/
def extOfClass (c : BitVec 2) : Nat := if c = 0 then 0 else if c = 1 then 2 else 8

/-- The width class of an extended length of `e` bytes (R101). -/
def classOfExt (e : Nat) : BitVec 2 := if e = 0 then 0 else if e = 2 then 1 else 2

/-- `to_be(v, n)`: n bytes, byte k being `v[8(n-1-k)+7 : 8(n-1-k)]` (spec/00_scope.md R9). -/
def toBe (v : BitVec 64) : Nat → List Byte
  | 0 => []
  | n + 1 => v.extractLsb' (8 * n) 8 :: toBe v n

/-- The `len7` an encoder writes (R85). -/
def encodedLen7 (len : BitVec 64) : BitVec 7 :=
  if lenClass len = 0 then len.extractLsb' 0 7 else if lenClass len = 1 then 126 else 127

/-! ### The key and the header the registers hold -/

/-- `key[j]` (R30). -/
def MaskKey.at (k : MaskKey) (j : BitVec 2) : Byte :=
  if j = 0 then k.k0 else if j = 1 then k.k1 else if j = 2 then k.k2 else k.k3

/-- The key MASK_KEY holds: key[j] is bits [8j+7:8j] (R30, spec/20_memory.md R54). -/
def keyOfWord (w : Word) : MaskKey where
  k0 := lane w 0
  k1 := lane w 1
  k2 := lane w 2
  k3 := lane w 3

/-- What DECODE writes to MASK_KEY: `k3 ++ k2 ++ k1 ++ k0`, or 0 for an absent key
(spec/41_header_codec.md R102). -/
def wordOfKey : Option MaskKey → Word
  | none => 0
  | some k => ofLanes k.k0 k.k1 k.k2 k.k3

/-- `hdrOf(state)` (R31). -/
def hdrOf (s : State) : Header where
  fin := s.fin
  opcode := s.opcode
  isMasked := s.masked
  mask := if s.masked then some (keyOfWord s.maskKey) else none
  contentLen := s.contentLen

end Sys2Proof.Machine
end

