-- ==== Sys2Proof/Machine/Bus.lean ====
section
/-! DEFINITION. Sys2Proof/Machine/Bus.lean: the host bus: address map, word reads and word writes
(spec/20_memory.md R50 to R61; the registers' layouts from spec/10_state.md). -/
namespace Sys2Proof.Machine

/-- The registers of the address map (R51). -/
inductive Reg where
  | id | cfg | cmd | status | hdrCtrl | hdrInfo | lenLo | lenHi | maskKey | maskPhase | ibufAvail | obufLen
  | pStart | pCount
  deriving DecidableEq, Repr

/-- What a word address selects (R51): a register, word `k` of a window, or nothing. -/
inductive Target where
  | reg (r : Reg)
  | ibuf (k : Nat)
  | obuf (k : Nat)
  | pbuf (k : Nat)
  | unmapped
  deriving DecidableEq, Repr

/-- "The byte address of word `a` is `4a`." (R50). -/
def byteAddr (a : HAddr) : Nat := 4 * a.toNat

/-- The register rows of R51, by byte address. -/
def regAt : Nat → Option Reg
  | 0x000 => some .id
  | 0x004 => some .cfg
  | 0x008 => some .cmd
  | 0x00C => some .status
  | 0x010 => some .hdrCtrl
  | 0x014 => some .hdrInfo
  | 0x018 => some .lenLo
  | 0x01C => some .lenHi
  | 0x020 => some .maskKey
  | 0x024 => some .maskPhase
  | 0x028 => some .ibufAvail
  | 0x02C => some .obufLen
  | 0x030 => some .pStart
  | 0x034 => some .pCount
  | _ => none

/-- The address map R51 for an instance with parameters `c`. -/
def target (c : Config) (a : HAddr) : Target :=
  let b := byteAddr a
  match regAt b with
  | some r => .reg r
  | none =>
    if 0x040 ≤ b ∧ b < 0x050 then .ibuf ((b - 0x040) / 4)
    else if 0x050 ≤ b ∧ b < 0x060 then .obuf ((b - 0x050) / 4)
    else if 0x1000 ≤ b ∧ b < 0x1000 + c.pbufSize then .pbuf ((b - 0x1000) / 4)
    else .unmapped

/-- CMD's word address, byte address 0x008. -/
def cmdAddr : HAddr := 2

/-- ID reads this constant (R21). -/
def idWord : Word := 0x57534843

/-- CFG: OBUF_SIZE, IBUF_SIZE, PBUF_SIZE (R22). -/
def cfgWord (c : Config) : Word := 16#8 ++ 16#8 ++ BitVec.ofNat 16 c.pbufSize

/-- What a register reads as; reserved bits read 0 (R53). -/
def readReg (s : State) : Reg → Word
  | .id => idWord
  | .cfg => cfgWord s.cfg
  | .cmd => 0
  | .status => Status.word s.status
  | .hdrCtrl => 0#23 ++ BitVec.ofBool s.masked ++ s.opcode ++ 0#3 ++ BitVec.ofBool s.fin
  | .hdrInfo => 0#20 ++ s.headerLen ++ 0#6 ++ s.lclass
  | .lenLo => s.contentLen.extractLsb' 0 32
  | .lenHi => s.contentLen.extractLsb' 32 32
  | .maskKey => s.maskKey
  | .maskPhase => 0#30 ++ s.maskPhase
  | .ibufAvail => 0#27 ++ s.ibufAvail
  | .obufLen => 0#27 ++ s.obufLen
  | .pStart => s.pStart
  | .pCount => s.pCount

/-- `MemRead` (R50): no read has a side effect (R58). -/
def readTarget (s : State) : Target → Word
  | .reg r => readReg s r
  | .ibuf k => Buf.word s.ibuf k
  | .obuf k => Buf.word s.obuf k
  | .pbuf k => ofLanes (pbufByte s (4 * k)) (pbufByte s (4 * k + 1)) (pbufByte s (4 * k + 2)) (pbufByte s (4 * k + 3))
  | .unmapped => 0

/-- The word a host read of word address `a` returns. -/
def busRead (s : State) (a : HAddr) : Word := readTarget s (target s.cfg a)

/-- The value IBUF_AVAIL stores: `min(w[4:0], 16)` (R36). -/
def legalAvail (w : Word) : BitVec 5 := BitVec.ofNat 5 (min (w.extractLsb' 0 5).toNat 16)

/-- What a host write stores in a register: exactly its RW fields; nothing in a read-only register (R53).
The command a CMD write runs is `performOp`'s; CMD itself retains nothing (R23). -/
def writeReg (s : State) (w : Word) : Reg → State
  | .id => s
  | .cfg => s
  | .cmd => s
  | .status => s
  | .hdrCtrl => { s with fin := w.getLsbD 0, opcode := w.extractLsb' 4 4, masked := w.getLsbD 8 }
  | .hdrInfo => s
  | .lenLo => { s with contentLen := s.contentLen.extractLsb' 32 32 ++ w }
  | .lenHi => { s with contentLen := w ++ s.contentLen.extractLsb' 0 32 }
  | .maskKey => { s with maskKey := w }
  | .maskPhase => { s with maskPhase := w.extractLsb' 0 2 }
  | .ibufAvail => { s with ibufAvail := legalAvail w }
  | .obufLen => s
  | .pStart => { s with pStart := w }
  | .pCount => { s with pCount := w }

/-- What a host write stores (R52, R53, R59, R60, R61). -/
def writeTarget (s : State) (w : Word) : Target → State
  | .reg r => writeReg s w r
  | .ibuf k => { s with ibuf := Buf.storeWord s.ibuf k w }
  | .obuf _ => s
  | .pbuf k => writePbuf (4 * k) [lane w 0, lane w 1, lane w 2, lane w 3] s
  | .unmapped => s

/-- The storing part of a host write of `w` to word address `a`. -/
def busWrite (s : State) (a : HAddr) (w : Word) : State := writeTarget s w (target s.cfg a)

end Sys2Proof.Machine
end

