-- ==== Sys2Proof/Machine/Codec.lean ====
section
/-! DEFINITION. Sys2Proof/Machine/Codec.lean: the header codec commands DECODE and ENCODE
(spec/41_header_codec.md R100 to R107). -/
namespace Sys2Proof.Machine

/-- `decodeHeader` (R101). It takes HEADER_LEN from the wire form, not from `lenClass` (R87, C2). -/
def decodeHeader (ib : Buf) (n : Nat) : DecodeResult :=
  if n < 2 then .incomplete 2
  else
    let b1 := Buf.byte ib 1
    if n < headerLenOf b1 then .incomplete (headerLenOf b1)
    else
      let e := ext (wireLen7 b1)
      .ok
        { fin := wireFin (Buf.byte ib 0)
          opcode := wireOpcode (Buf.byte ib 0)
          isMasked := wireMasked b1
          mask := if wireMasked b1 then some (keyAt ib (2 + e)) else none
          contentLen := wireLen ib }
        (headerLenOf b1) (classOfExt e) (nonmin e (wireLen ib))

/-- The key bytes an encoder writes: those of the key when the header is masked (R106). -/
def keyBytes (h : Header) : List Byte :=
  match h.isMasked, h.mask with
  | true, some k => [k.k0, k.k1, k.k2, k.k3]
  | true, none => []
  | false, _ => []

/-- `encodeHeader` (R106); RSV is written as 000 (R86). -/
def encodeHeader (h : Header) : List Byte :=
  [BitVec.ofBool h.fin ++ 0#3 ++ h.opcode, BitVec.ofBool h.isMasked ++ encodedLen7 h.contentLen]
    ++ toBe h.contentLen (extOfClass (lenClass h.contentLen)) ++ keyBytes h

/-- The register writes of a DECODE that ends OK (R102). -/
def loadHeader (h : Header) (hl : Nat) (lc : BitVec 2) (nm : Bool) (s : State) : State :=
  setFlags (headerFlags nm h.contentLen h.opcode)
    { s with
      fin := h.fin, opcode := h.opcode, masked := h.isMasked, contentLen := h.contentLen,
      maskKey := wordOfKey h.mask, headerLen := BitVec.ofNat 4 hl, lclass := lc, maskPhase := 0 }

/-- DECODE on the state (R102). -/
def decodeCmd (s : State) : State :=
  match decodeHeader s.ibuf s.ibufAvail.toNat with
  | .incomplete need => setStatus codeIncomplete (BitVec.ofNat 4 need) s
  | .ok h hl lc nm => setStatus codeOk 0 (loadHeader h hl lc nm s)

/-- The register writes of an ENCODE whose header bytes are `bytes` (R107). -/
def storeHeader (bytes : List Byte) (s : State) : State :=
  setFlags (headerFlags false s.contentLen s.opcode)
    { s with
      obuf := Buf.ofBytes bytes, obufLen := BitVec.ofNat 5 bytes.length,
      headerLen := BitVec.ofNat 4 bytes.length, lclass := lenClass s.contentLen, maskPhase := 0 }

/-- ENCODE on the state (R107). -/
def encodeCmd (s : State) : State := setStatus codeOk 0 (storeHeader (encodeHeader (hdrOf s)) s)

/-- DECODE (R102): always a next state, OK or INCOMPLETE. -/
def execDecode (s : State) : Host.Outcome State Fault Refusal := .next (decodeCmd s)

/-- ENCODE (R107): "ENCODE cannot fail". -/
def execEncode (s : State) : Host.Outcome State Fault Refusal := .next (encodeCmd s)

end Sys2Proof.Machine
end

