-- ==== Sys2Proof/Machine/Control.lean ====
section
/-! DEFINITION. Sys2Proof/Machine/Control.lean: the control commands NOP, SRESET and the reserved command
words (spec/43_control.md R130 to R132). -/
namespace Sys2Proof.Machine

/-- `status(BAD_CMD, 0)`: what every reserved word does (R132). -/
def badCmd (s : State) : State := setStatus codeBadCmd 0 s

/-- NOP (R130): "No state changes, STATUS included." -/
def execNop (s : State) : Host.Outcome State Fault Refusal := .next s

/-- SRESET (R131). -/
def execSreset (s : State) : Host.Outcome State Fault Refusal := .next (clearAllButPbuf s)

/-- OP 0x4 to 0x7 (R132). -/
def execReserved4to7 (s : State) : Host.Outcome State Fault Refusal := .next (badCmd s)

/-- OP 0x8 to 0xB (R132). -/
def execReserved8toB (s : State) : Host.Outcome State Fault Refusal := .next (badCmd s)

/-- OP 0xC to 0xD (R132). -/
def execReservedCtoD (s : State) : Host.Outcome State Fault Refusal := .next (badCmd s)

/-- OP 0xE (R132). -/
def execReservedE (s : State) : Host.Outcome State Fault Refusal := .next (badCmd s)

/-- RSVD not 0 (R132): "0x80000003 is reserved, not MASK." -/
def execReservedRsvd (s : State) : Host.Outcome State Fault Refusal := .next (badCmd s)

end Sys2Proof.Machine
end

