-- ==== Sys2Proof/Machine/Mask.lean ====
section
/-! DEFINITION. Sys2Proof/Machine/Mask.lean: the payload masking engine, MASK
(spec/42_mask_engine.md R120 to R126). -/
namespace Sys2Proof.Machine

/-- `xorMask` (R121): byte j is XORed with `key[(phase + j) mod 4]`. -/
def xorMask (key : MaskKey) (phase : BitVec 2) : List Byte → List Byte
  | [] => []
  | b :: bs => (b ^^^ key.at phase) :: xorMask key (phase + 1) bs

/-- MASK on the state (R122). The sum of the range check is a sum of naturals, so it does not wrap (R8).
It does not read MASKED. -/
def maskCmd (s : State) : State :=
  let start := s.pStart.toNat
  let count := s.pCount.toNat
  if s.cfg.pbufSize < start + count then setStatus codeRange 0 s
  else
    setStatus codeOk 0
      { writePbuf start (xorMask (keyOfWord s.maskKey) s.maskPhase (pbufBytes s start count)) s with
        maskPhase := BitVec.ofNat 2 (s.maskPhase.toNat + count) }

/-- MASK (R122): always a next state, OK or RANGE. -/
def execMask (s : State) : Host.Outcome State Fault Refusal := .next (maskCmd s)

end Sys2Proof.Machine
end

