-- ==== Sys2Proof/Machine/Dispatch.lean ====
section
/-! DEFINITION. Sys2Proof/Machine/Dispatch.lean: one arm per command. -/
namespace Sys2Proof.Machine

/-- The effect of a command (spec/30_encoding.md R72). The free bits of a reserved word change nothing (R132). -/
def exec (i : Instr) (s : State) : Host.Outcome State Fault Refusal :=
  match i with
  | .nop => Sys2Proof.Machine.execNop s
  | .decode => Sys2Proof.Machine.execDecode s
  | .encode => Sys2Proof.Machine.execEncode s
  | .mask => Sys2Proof.Machine.execMask s
  | .sreset => Sys2Proof.Machine.execSreset s
  | .reserved4to7 _ => Sys2Proof.Machine.execReserved4to7 s
  | .reserved8toB _ => Sys2Proof.Machine.execReserved8toB s
  | .reservedCtoD _ => Sys2Proof.Machine.execReservedCtoD s
  | .reservedE => Sys2Proof.Machine.execReservedE s
  | .reservedRsvd _ _ => Sys2Proof.Machine.execReservedRsvd s

end Sys2Proof.Machine
end

