-- ==== Sys2Proof/Machine/Port.lean ====
section
/-! DEFINITION. Sys2Proof/Machine/Port.lean: one host access, or one power-on reset, from start to end
(spec/20_memory.md R50, R58; spec/70_reset_and_hazards.md R161, R168). -/
namespace Sys2Proof.Machine

/-- A host write: to CMD it runs the command the word encodes (spec/10_state.md R23), elsewhere it stores. -/
def performWrite (a : HAddr) (w : Word) (s : State) : Host.Outcome State Fault Refusal :=
  if target s.cfg a = .reg .cmd then exec (decode w) s else .next (busWrite s a w)

/-- One host operation, complete before the next (R57). -/
def performOp (op : HostOp) (s : State) : Host.Outcome State Fault Refusal :=
  match op with
  | .read a => .next { s with observed := busRead s a :: s.observed }
  | .write a w => performWrite a w s
  | .powerOnReset => .next (powerOnReset s)

end Sys2Proof.Machine
end

