-- ==== Sys2Proof/Machine/Step.lean ====
section
/-! DEFINITION. Sys2Proof/Machine/Step.lean: one step: the host's next operation, or nothing while the host
makes none (spec/10_state.md R24; notes/assumptions/6.md). WSHC fetches no instructions: the command word is
taken from the CMD write itself (spec/20_memory.md R65). -/
namespace Sys2Proof.Machine

/-- One step. -/
def step (s : State) : Host.Outcome State Fault Refusal :=
  match s.pending with
  | [] => .next s
  | op :: rest => performOp op { s with pending := rest }

/-- `s` with a CMD write of the row's word as the host's next access (notes/assumptions/8.md). -/
def State.withFetchWord (s : State) (nbits w : Nat) : State :=
  { s with pending := .write cmdAddr (tableWord nbits w) :: s.pending }

end Sys2Proof.Machine
end

