-- ==== Sys2Proof/Safety.lean ====
section
/-! DEFINITION. Sys2Proof/Safety.lean: the invariants of spec/10_state.md R39, the runs of
spec/70_reset_and_hazards.md R168, and the views of a state that the statements compare. -/
namespace Sys2Proof.Machine

/-- The header lengths that occur (spec/00_scope.md R6, spec/90_conflicts.md C5). -/
abbrev legalHeaderLen (n : Nat) : Prop := n = 2 ∨ n = 4 ∨ n = 6 ∨ n = 8 ∨ n = 10 ∨ n = 14

/-- The invariants of R39, with NEED as R25 has it, a legal PBUF_SIZE, and PBUF in canonical form. -/
structure Inv (s : State) : Prop where
  cfgLegal : s.cfg.legal
  headerLenLegal : s.headerLen.toNat = 0 ∨ legalHeaderLen s.headerLen.toNat
  lclassLegal : s.lclass.toNat ≤ 2
  headerLenForm : s.headerLen ≠ 0 →
    ∃ m : Bool, s.headerLen.toNat = 2 + extOfClass s.lclass + if m then 4 else 0
  obufLenLegal : s.obufLen.toNat = 0 ∨ legalHeaderLen s.obufLen.toNat
  obufZeroFill : ∀ k, s.obufLen.toNat ≤ k → Buf.byte s.obuf k = 0
  ibufAvailLegal : s.ibufAvail.toNat ≤ 16
  codeLegal : s.status.code.toNat ≤ 3
  needOnIncomplete : s.status.code = codeIncomplete → legalHeaderLen s.status.need.toNat
  needElseZero : s.status.code ≠ codeIncomplete → s.status.need = 0
  pbufCanonical : Memory.wf s.pbuf = true
  pbufWithin : Memory.within s.cfg.pbufSize s.pbuf = true

/-- A state some run reaches. A run starts from power-on of a legal instance, with any host operations to come, or
from any state that has the invariants (R168, launch premise). -/
inductive Reachable : State → Prop where
  | powerOn (cfg : Config) (k : Nat) (ops : List HostOp) : cfg.legal → Reachable (State.powerOn cfg k ops)
  | launch (s : State) : Inv s → Reachable s
  | step (s t : State) : Reachable s → Machine.step s = .next t → Reachable t

/-- The fields a host read or write and a command leave alone in any case: the model's own host fields and
the parameters. -/
abbrev SameHost (s t : State) : Prop :=
  t.cfg = s.cfg ∧ t.powerOns = s.powerOns ∧ t.pending = s.pending ∧ t.observed = s.observed

/-- Every PBUF byte reads the same. -/
abbrev SamePbuf (s t : State) : Prop := ∀ a, pbufByte t a = pbufByte s a

/-- IBUF and IBUF_AVAIL are the same. -/
abbrev SameIbuf (s t : State) : Prop := t.ibuf = s.ibuf ∧ t.ibufAvail = s.ibufAvail

/-- OBUF and OBUF_LEN are the same. -/
abbrev SameObuf (s t : State) : Prop := t.obuf = s.obuf ∧ t.obufLen = s.obufLen

/-- P_START and P_COUNT are the same. -/
abbrev SameRange (s t : State) : Prop := t.pStart = s.pStart ∧ t.pCount = s.pCount

/-- FIN, OPCODE, MASKED, CONTENT_LEN and MASK_KEY are the same. -/
abbrev SameHeader (s t : State) : Prop :=
  t.fin = s.fin ∧ t.opcode = s.opcode ∧ t.masked = s.masked ∧ t.contentLen = s.contentLen ∧ t.maskKey = s.maskKey

/-- HEADER_LEN and LCLASS are the same. -/
abbrev SameInfo (s t : State) : Prop := t.headerLen = s.headerLen ∧ t.lclass = s.lclass

/-- MASKs over consecutive ranges of `cs` bytes each, from P_START on, take `s` to `u`: the host sets P_COUNT before each
and advances P_START after it, and leaves MASK_PHASE alone (spec/42_mask_engine.md R124). -/
def MaskChunks : List Word → State → State → Prop
  | [], s, u => u = s
  | c :: cs, s, u =>
    ∃ t, exec .mask { s with pCount := c } = .next t ∧ MaskChunks cs { t with pStart := s.pStart + c } u

/-- Every register, IBUF and OBUF at the reset value the spec gives it (R40): 0. -/
structure RegistersAtReset (t : State) : Prop where
  fin : t.fin = false
  opcode : t.opcode = 0
  masked : t.masked = false
  contentLen : t.contentLen = 0
  maskKey : t.maskKey = 0
  headerLen : t.headerLen = 0
  lclass : t.lclass = 0
  status : Status.word t.status = 0
  maskPhase : t.maskPhase = 0
  ibuf : ∀ k, k < 16 → Buf.byte t.ibuf k = 0
  ibufAvail : t.ibufAvail = 0
  obuf : ∀ k, k < 16 → Buf.byte t.obuf k = 0
  obufLen : t.obufLen = 0
  pStart : t.pStart = 0
  pCount : t.pCount = 0

end Sys2Proof.Machine
end

