-- ==== Sys2Proof/Certificates/Slice0/Obligations.lean ====
section
/-! DEFINITION. Sys2Proof/Certificates/Slice0/Obligations.lean: what is claimed of the model, from the numbered
rules of spec/. Each docstring names the rule or the section its statement formalises. -/

open Sys2Proof Sys2Proof.Machine

/-! ### Command words -/

/-- Words written out from the opcode map decode to the commands they stand for (spec/30_encoding.md R72). -/
def Obligations.CommandWordsDecodeToTheirCommands : Prop :=
  decode 0x00000000 = .nop ∧ decode 0x00000001 = .decode ∧ decode 0x00000002 = .encode ∧
    decode 0x00000003 = .mask ∧ decode 0x0000000F = .sreset ∧
    decode 0x00000007 = .reserved4to7 3 ∧ decode 0x00000009 = .reserved8toB 1 ∧
    decode 0x0000000D = .reservedCtoD 1 ∧ decode 0x0000000E = .reservedE ∧
    decode 0x00000011 = .reservedRsvd 1 1 ∧ decode 0x80000003 = .reservedRsvd 3 0x8000000

/-- R71: a word selects a command only when it is one of the five exact values; every other word, any nonzero
RSVD or an undefined OP, is reserved. -/
def Obligations.EveryWordSelectsExactlyOneCommand : Prop :=
  ∀ w : Word,
    (decode w = .nop ↔ w = 0x00000000) ∧ (decode w = .decode ↔ w = 0x00000001) ∧
      (decode w = .encode ↔ w = 0x00000002) ∧ (decode w = .mask ↔ w = 0x00000003) ∧
      (decode w = .sreset ↔ w = 0x0000000F) ∧
      ((decode w).isReserved = true ↔
        w.extractLsb' 4 28 ≠ 0 ∨ (4 ≤ (w.extractLsb' 0 4).toNat ∧ (w.extractLsb' 0 4).toNat ≤ 14))

/-- The decoder reads back every well-formed instruction from its word, whatever its free bits. -/
def Obligations.DecodeInvertsEncode : Prop :=
  ∀ i : Instr, i.wf = true → decode (encode i) = i

/-- No bit of a word is dropped: every word is the word of the well-formed instruction it decodes to. -/
def Obligations.EncodeInvertsDecode : Prop :=
  ∀ w : Word, (decode w).wf = true ∧ encode (decode w) = w

/-! ### The step -/

/-- R23: a host write to CMD runs the command its word encodes, and a read of CMD returns 0 and has no effect.
What the step adds: the access leaves the host's list, and what a read returned joins the host's observations.
CMD retains nothing: `State` has no field for it. -/
def Obligations.StepRunsTheDecodedCommand : Prop :=
  ∀ (s : State) (w : Word) (rest : List HostOp),
    (s.pending = .write cmdAddr w :: rest → step s = exec (decode w) { s with pending := rest }) ∧
      (s.pending = .read cmdAddr :: rest → step s = .next { s with pending := rest, observed := 0 :: s.observed })

/-- The step after `withFetchWord` runs exactly the command of the given word, on the state as it was. The
host's list of accesses is the model's choice (notes/assumptions/4.md, 8.md). -/
def Obligations.PlacedCommandWordRunsNext : Prop :=
  ∀ (s : State) (w : Word), step (s.withFetchWord 32 w.toNat) = exec (decode w) s

/-- With no host access to come a step changes nothing (the model's reading of spec/10_state.md section 2,
notes/assumptions/6.md). -/
def Obligations.IdleStepChangesNothing : Prop :=
  ∀ s : State, s.pending = [] → step s = .next s

/-- R150: every step is total: every command word has a meaning, in every register state, and every host access
has one. -/
def Obligations.EveryStepAnswersANextState : Prop :=
  (∀ s : State, ∃ t, step s = .next t) ∧
    (∀ (w : Word) (s : State), ∃ t, exec (decode w) s = .next t) ∧
    (∀ (i : Instr) (s : State), ∃ t, exec i s = .next t) ∧
    (∀ (op : HostOp) (s : State), ∃ t, performOp op s = .next t)

/-- A step takes the next host operation and no other, never changes the parameters, and only a read adds an
observation. The host fields are the model's choice (notes/assumptions/4.md, 5.md). -/
def Obligations.StepTakesExactlyTheNextOperation : Prop :=
  ∀ (s t : State) (op : HostOp) (rest : List HostOp),
    s.pending = op :: rest → step s = .next t →
      t.pending = rest ∧ t.cfg = s.cfg ∧
        (op ≠ .powerOnReset → t.powerOns = s.powerOns) ∧
        (∀ a, op = .read a → t.observed = busRead s a :: s.observed) ∧
        ((∀ a, op ≠ .read a) → t.observed = s.observed)

/-! ### Invariants (spec/10_state.md section 7) -/

/-- Every step keeps the invariants, from any state that has them. -/
def Obligations.EveryStepKeepsTheInvariants : Prop :=
  ∀ s t : State, Inv s → step s = .next t → Inv t

/-- The state after power-on of a legal instance has the invariants, and so has `State.reset`, whose PBUF_SIZE is
the model's choice (notes/assumptions/1.md). -/
def Obligations.PowerOnStateHasTheInvariants : Prop :=
  (∀ (cfg : Config) (k : Nat) (ops : List HostOp), cfg.legal → Inv (State.powerOn cfg k ops)) ∧ Inv State.reset

/-- Every state a run reaches, from power-on of any legal configuration or from a state that has the invariants, under
any host operations, has the invariants. -/
def Obligations.ReachableStatesHaveTheInvariants : Prop :=
  ∀ s : State, Reachable s → Inv s

/-- After a DECODE that ends OK and after an ENCODE, HEADER_LEN is 2 + ext(LCLASS) + 4 m, m being the MASKED value
at the time of that command. -/
def Obligations.HeaderLenFitsTheCommandThatWroteIt : Prop :=
  ∀ (s t : State) (i : Instr),
    (i = .decode ∧ t.status.code = 0) ∨ i = .encode → exec i s = .next t →
      t.headerLen.toNat = 2 + (if t.lclass = 0 then 0 else if t.lclass = 1 then 2 else 8) + (if t.masked then 4 else 0) ∧
        t.lclass ≠ 3

/-! ### Reset -/

/-- R40: the reset values; SRESET gives the same values and keeps PBUF; PBUF's bytes after power-on are free
draws; ID and CFG are constants. -/
def Obligations.ResetValues : Prop :=
  (∀ (cfg : Config) (k : Nat) (ops : List HostOp),
      RegistersAtReset (State.powerOn cfg k ops) ∧ ∀ a, pbufByte (State.powerOn cfg k ops) a = Config.pbufDraw k a) ∧
    (∀ s : State, ∃ t, exec .sreset s = .next t ∧ RegistersAtReset t ∧ SamePbuf s t) ∧
    (∀ s : State, busRead s 0 = 0x57534843 ∧
      (s.cfg.legal → (busRead s 1).toNat = 0x10100000 + s.cfg.pbufSize))

/-- A power-on reset that arrives between two host accesses resets every register and buffer and gives PBUF a new
draw. That it is an operation of the host's list, and the number of the draw, are the model's choice
(notes/assumptions/2.md, 7.md). -/
def Obligations.PowerOnResetStep : Prop :=
  ∀ (s : State) (rest : List HostOp), s.pending = .powerOnReset :: rest →
    ∃ t, step s = .next t ∧ RegistersAtReset t ∧ t.pending = rest ∧ t.cfg = s.cfg ∧ t.observed = s.observed ∧
      ∀ a, pbufByte t a = Config.pbufDraw (s.powerOns + 1) a

/-- SRESET and power-on reset differ only in PBUF, which SRESET keeps (spec/70_reset_and_hazards.md section 1). The
number of the power-on, which stands for PBUF's draw, is the model's (notes/assumptions/2.md). -/
def Obligations.SresetDiffersFromPowerOnOnlyInPbuf : Prop :=
  ∀ s : State, ∃ t u, performOp .powerOnReset s = .next t ∧ exec .sreset s = .next u ∧
    t = { u with pbuf := t.pbuf, powerOns := t.powerOns } ∧ SamePbuf s u

/-! ### Control commands -/

/-- R130: NOP, word 0x00000000, changes no state, STATUS included. -/
def Obligations.NopChangesNothing : Prop :=
  decode 0x00000000 = .nop ∧ ∀ s : State, exec .nop s = .next s

/-- R131: SRESET, word 0x0000000F, gives every state element but PBUF its reset value, and twice is as once. -/
def Obligations.SresetClearsAllButPbuf : Prop :=
  decode 0x0000000F = .sreset ∧ ∀ s : State, ∃ t, exec .sreset s = .next t ∧ RegistersAtReset t ∧ SamePbuf s t ∧ SameHost s t ∧
    exec .sreset t = .next t

/-- R132: every word other than the five sets CODE to BAD_CMD and NEED to 0 and changes nothing else, the flags
included. -/
def Obligations.ReservedWordReportsBadCmd : Prop :=
  ∀ (w : Word) (s : State),
    w ≠ 0x00000000 → w ≠ 0x00000001 → w ≠ 0x00000002 → w ≠ 0x00000003 → w ≠ 0x0000000F →
      exec (decode w) s = .next { s with status := { code := 2, need := 0, flags := s.status.flags } }

/-- The five reserved constructors, whatever bits they carry, complete, with CODE = BAD_CMD, NEED = 0, the flags and
everything else as before. -/
def Obligations.ReservedCommandsFrame : Prop :=
  ∀ (lo : BitVec 2) (b : BitVec 1) (op : BitVec 4) (rsvd : BitVec 28) (i : Instr) (s : State),
    i = .reserved4to7 lo ∨ i = .reserved8toB lo ∨ i = .reservedCtoD b ∨ i = .reservedE ∨ i = .reservedRsvd op rsvd →
      ∃ t, exec i s = .next t ∧ t.status.code = 2 ∧ t.status.need = 0 ∧ t.status.flags = s.status.flags ∧
        SameHeader s t ∧ SameInfo s t ∧ t.maskPhase = s.maskPhase ∧ SameIbuf s t ∧ SameObuf s t ∧ SameRange s t ∧
        SamePbuf s t ∧ SameHost s t

/-! ### DECODE -/

/-- R102: DECODE, word 0x00000001. INCOMPLETE writes CODE and NEED and nothing else; OK writes the header registers from the wire
fields, the key or 0, HEADER_LEN, LCLASS, MASK_PHASE and all of STATUS, and nothing else. -/
def Obligations.DecodeEffect : Prop :=
  decode 0x00000001 = .decode ∧ ∀ s : State,
    let n := s.ibufAvail.toNat
    let b0 := Buf.byte s.ibuf 0
    let b1 := Buf.byte s.ibuf 1
    let len7 := (b1.extractLsb' 0 7).toNat
    let e := if len7 = 126 then 2 else if len7 = 127 then 8 else 0
    let hl := 2 + e + if b1.getLsbD 7 then 4 else 0
    (n < 2 → exec .decode s = .next { s with status := { code := 1, need := 2, flags := s.status.flags } }) ∧
    (2 ≤ n → n < hl →
      exec .decode s = .next { s with status := { code := 1, need := BitVec.ofNat 4 hl, flags := s.status.flags } }) ∧
    (2 ≤ n → hl ≤ n →
      ∃ t, exec .decode s = .next t ∧
        t.fin = b0.getLsbD 7 ∧ t.opcode = b0.extractLsb' 0 4 ∧ t.masked = b1.getLsbD 7 ∧
        t.contentLen.toNat =
          (if e = 0 then len7
            else if e = 2 then 256 * (Buf.byte s.ibuf 2).toNat + (Buf.byte s.ibuf 3).toNat
            else 2 ^ 56 * (Buf.byte s.ibuf 2).toNat + 2 ^ 48 * (Buf.byte s.ibuf 3).toNat
              + 2 ^ 40 * (Buf.byte s.ibuf 4).toNat + 2 ^ 32 * (Buf.byte s.ibuf 5).toNat
              + 2 ^ 24 * (Buf.byte s.ibuf 6).toNat + 2 ^ 16 * (Buf.byte s.ibuf 7).toNat
              + 2 ^ 8 * (Buf.byte s.ibuf 8).toNat + (Buf.byte s.ibuf 9).toNat) ∧
        t.maskKey =
          (if b1.getLsbD 7 then
            Buf.byte s.ibuf (5 + e) ++ Buf.byte s.ibuf (4 + e) ++ Buf.byte s.ibuf (3 + e) ++ Buf.byte s.ibuf (2 + e)
          else 0) ∧
        t.headerLen.toNat = hl ∧ t.lclass = (if e = 0 then 0 else if e = 2 then 1 else 2) ∧ t.maskPhase = 0 ∧
        t.status.code = 0 ∧ t.status.need = 0 ∧
        (t.status.flags.nonmin = true ↔
          (e = 2 ∧ t.contentLen.toNat < 126) ∨ (e = 8 ∧ t.contentLen.toNat < 65536)) ∧
        t.status.flags.lenMsb = t.contentLen.getLsbD 63 ∧
        (t.status.flags.opcUnknown = true ↔
          ¬ (t.opcode = 0x0 ∨ t.opcode = 0x1 ∨ t.opcode = 0x2 ∨ t.opcode = 0x8 ∨ t.opcode = 0x9 ∨ t.opcode = 0xA)) ∧
        (t.status.flags.opcControl = true ↔ t.opcode = 0x8 ∨ t.opcode = 0x9 ∨ t.opcode = 0xA) ∧
        SameIbuf s t ∧ SameObuf s t ∧ SameRange s t ∧ SamePbuf s t ∧ SameHost s t)

/-- DECODE leaves the buffers, P_START, P_COUNT and every PBUF byte alone, and on INCOMPLETE also the header
registers, HEADER_LEN, LCLASS, MASK_PHASE and the flags (spec/41_header_codec.md section 1). -/
def Obligations.DecodeFrame : Prop :=
  ∀ s t : State, exec .decode s = .next t →
    SameIbuf s t ∧ SameObuf s t ∧ SameRange s t ∧ SamePbuf s t ∧ SameHost s t ∧
      (t.status.code ≠ 0 →
        SameHeader s t ∧ SameInfo s t ∧ t.maskPhase = s.maskPhase ∧ t.status.flags = s.status.flags)

/-- R104: after a DECODE that ends OK the key is the last 4 bytes of the header, or 0 when the header is unmasked,
and MASK_PHASE is 0. -/
def Obligations.DecodedKeyIsTheEndOfTheHeader : Prop :=
  ∀ s t : State, exec .decode s = .next t → t.status.code = 0 →
    (t.masked = true → ∀ j, j < 4 →
        t.maskKey.extractLsb' (8 * j) 8 = Buf.byte s.ibuf (t.headerLen.toNat - 4 + j)) ∧
      (t.masked = false → t.maskKey = 0) ∧ t.maskPhase = 0

/-- `decodeHeader` reads no byte at or past the count, and none past the header (spec/41_header_codec.md R101, its last
sentence). -/
def Obligations.DecodeReadsOnlyTheHeaderBytes : Prop :=
  ∀ (ib ib' : Buf) (n : Nat),
    (∀ k, k < n → k < headerLenOf (Buf.byte ib 1) → Buf.byte ib' k = Buf.byte ib k) →
      decodeHeader ib' n = decodeHeader ib n

/-- R86: neither the decode result nor any register, flag or status after DECODE depends on byte 0 bits 6:4, and the
encoder writes 000 there. -/
def Obligations.RsvBitsAreIgnoredAndWrittenZero : Prop :=
  (∀ (ib ib' : Buf) (n : Nat),
      (∀ k, k ≠ 0 → Buf.byte ib' k = Buf.byte ib k) →
      (Buf.byte ib' 0).getLsbD 7 = (Buf.byte ib 0).getLsbD 7 →
      (Buf.byte ib' 0).extractLsb' 0 4 = (Buf.byte ib 0).extractLsb' 0 4 →
        decodeHeader ib' n = decodeHeader ib n) ∧
    (∀ (s t t' : State) (ib' : Buf),
      (∀ k, k ≠ 0 → Buf.byte ib' k = Buf.byte s.ibuf k) →
      (Buf.byte ib' 0).getLsbD 7 = (Buf.byte s.ibuf 0).getLsbD 7 →
      (Buf.byte ib' 0).extractLsb' 0 4 = (Buf.byte s.ibuf 0).extractLsb' 0 4 →
      exec .decode s = .next t → exec .decode { s with ibuf := ib' } = .next t' → t' = { t with ibuf := ib' }) ∧
    (∀ s t : State, exec .encode s = .next t → (Buf.byte t.obuf 0).extractLsb' 4 3 = 0)

/-- R103: DECODE is resumable: (a) bytes after a complete header change nothing; (b) and (c) what NEED is and how it
can grow; (d) an INCOMPLETE DECODE leaves all but STATUS as it was, so the first OK gives what one DECODE over the
complete header gives. -/
def Obligations.DecodeIsResumable : Prop :=
  (∀ (ib ib' : Buf) (n n' : Nat), n ≤ n' → n' ≤ 16 → (∀ k, k < n → Buf.byte ib' k = Buf.byte ib k) →
      (∀ h hl lc nm, decodeHeader ib n = .ok h hl lc nm → decodeHeader ib' n' = .ok h hl lc nm) ∧
      (2 ≤ n → ∀ need, decodeHeader ib n = .incomplete need →
        need = headerLenOf (Buf.byte ib 1) ∧
        (need ≤ n' → ∃ h hl lc nm, decodeHeader ib' n' = .ok h hl lc nm) ∧
        (n' < need → decodeHeader ib' n' = .incomplete need)) ∧
      (n < 2 → decodeHeader ib n = .incomplete 2 ∧
        (n' < 2 → decodeHeader ib' n' = .incomplete 2) ∧
        (2 ≤ n' → (∃ h hl lc nm, decodeHeader ib' n' = .ok h hl lc nm) ∨
          (decodeHeader ib' n' = .incomplete (headerLenOf (Buf.byte ib' 1)) ∧
            (headerLenOf (Buf.byte ib' 1) = 4 ∨ headerLenOf (Buf.byte ib' 1) = 6 ∨ headerLenOf (Buf.byte ib' 1) = 8 ∨
              headerLenOf (Buf.byte ib' 1) = 10 ∨ headerLenOf (Buf.byte ib' 1) = 14))))) ∧
    (∀ s t : State, exec .decode s = .next t → t.status.code = 1 →
      t = { s with status := t.status } ∧
        ∀ (ib : Buf) (av : BitVec 5) (u : State),
          exec .decode { t with ibuf := ib, ibufAvail := av } = .next u → u.status.code = 0 →
            exec .decode { s with ibuf := ib, ibufAvail := av } = .next u)

/-- R80: the header length is 2, plus the extended length's bytes, plus 4 when masked; `b1` is header byte 1. -/
def Obligations.HeaderLengthOfByteOne : Prop :=
  ∀ b1 : Byte,
    headerLenOf b1 =
      2 + (if b1.toNat % 128 = 126 then 2 else if b1.toNat % 128 = 127 then 8 else 0) + (if 128 ≤ b1.toNat then 4 else 0)

/-- R110: a decoded header has NONMIN = 0 iff its wire width is the one ENCODE would choose, and then HEADER_LEN and
LCLASS are the values ENCODE would compute. -/
def Obligations.NonminSaysWhetherEncodeAgrees : Prop :=
  ∀ (ib : Buf) (n : Nat) (h : Header) (hl : Nat) (lc : BitVec 2) (nm : Bool),
    decodeHeader ib n = .ok h hl lc nm →
      (nm = false ↔ lc = lenClass h.contentLen) ∧
        (nm = false → hl = (encodeHeader h).length ∧ lc = lenClass h.contentLen)

/-- NOP, DECODE, ENCODE and SRESET run twice in a row give the state of running once (spec/20_memory.md
section 3). -/
def Obligations.CommandsButMaskAreIdempotent : Prop :=
  ∀ (i : Instr) (s t : State),
    i = .nop ∨ i = .decode ∨ i = .encode ∨ i = .sreset → exec i s = .next t → exec i t = .next t

/-! ### ENCODE -/

/-- R107: ENCODE, word 0x00000002, with the bytes of R106: byte 0, byte 1, the big-endian length of the selected width, the key when
masked, and 0 up to byte 15; OBUF_LEN, HEADER_LEN, LCLASS, MASK_PHASE and STATUS; nothing else. -/
def Obligations.EncodeEffect : Prop :=
  decode 0x00000002 = .encode ∧ ∀ s : State,
    let len := s.contentLen.toNat
    let e := if len ≤ 125 then 0 else if len ≤ 65535 then 2 else 8
    let len7 := if len ≤ 125 then len else if len ≤ 65535 then 126 else 127
    let hl := 2 + e + if s.masked then 4 else 0
    ∃ t, exec .encode s = .next t ∧
      (Buf.byte t.obuf 0).toNat = (if s.fin then 128 else 0) + s.opcode.toNat ∧
      (Buf.byte t.obuf 1).toNat = (if s.masked then 128 else 0) + len7 ∧
      (∀ k, k < e → (Buf.byte t.obuf (2 + k)).toNat = len / 256 ^ (e - 1 - k) % 256) ∧
      (s.masked = true → ∀ j, j < 4 → Buf.byte t.obuf (2 + e + j) = s.maskKey.extractLsb' (8 * j) 8) ∧
      (∀ k, hl ≤ k → k < 16 → Buf.byte t.obuf k = 0) ∧
      t.obufLen.toNat = hl ∧ t.headerLen.toNat = hl ∧
      t.lclass = (if len ≤ 125 then 0 else if len ≤ 65535 then 1 else 2) ∧ t.maskPhase = 0 ∧
      t.status.code = 0 ∧ t.status.need = 0 ∧ t.status.flags.nonmin = false ∧
      t.status.flags.lenMsb = s.contentLen.getLsbD 63 ∧
      (t.status.flags.opcUnknown = true ↔
        ¬ (s.opcode = 0x0 ∨ s.opcode = 0x1 ∨ s.opcode = 0x2 ∨ s.opcode = 0x8 ∨ s.opcode = 0x9 ∨ s.opcode = 0xA)) ∧
      (t.status.flags.opcControl = true ↔ s.opcode = 0x8 ∨ s.opcode = 0x9 ∨ s.opcode = 0xA) ∧
      SameHeader s t ∧ SameIbuf s t ∧ SameRange s t ∧ SamePbuf s t ∧ SameHost s t

/-- R84: the width selection, with its boundaries, the extended bytes and the `len7` of each width. -/
def Obligations.LengthWidthSelection : Prop :=
  ∀ len : BitVec 64,
    (len.toNat ≤ 125 →
      lenClass len = 0 ∧ extOfClass (lenClass len) = 0 ∧ (encodedLen7 len).toNat = len.toNat) ∧
    (126 ≤ len.toNat → len.toNat ≤ 65535 →
      lenClass len = 1 ∧ extOfClass (lenClass len) = 2 ∧ (encodedLen7 len).toNat = 126) ∧
    (65536 ≤ len.toNat → lenClass len = 2 ∧ extOfClass (lenClass len) = 8 ∧ (encodedLen7 len).toNat = 127)

/-- R109: the extended widths and `len7` of the eight lengths of the table. -/
def Obligations.LengthWidthTable : Prop :=
  ([0, 1, 125, 126, 65535, 65536, 65537, 2 ^ 20].map fun n =>
      (extOfClass (lenClass (BitVec.ofNat 64 n)), (encodedLen7 (BitVec.ofNat 64 n)).toNat)) =
    [(0, 0), (0, 1), (0, 125), (2, 126), (2, 126), (8, 127), (8, 127), (8, 127)]

/-- R88: the two opcode predicates. -/
def Obligations.OpcodePredicates : Prop :=
  ∀ op : BitVec 4,
    (isControl op = true ↔ op = 0x8 ∨ op = 0x9 ∨ op = 0xA) ∧
      (isKnown op = true ↔ op = 0x0 ∨ op = 0x1 ∨ op = 0x2 ∨ op = 0x8 ∨ op = 0x9 ∨ op = 0xA)

/-! ### The round trip (spec/41_header_codec.md section 3) -/

/-- Decoding any buffer that begins with the encoding of a header gives that header, its length, its width class and
no non-minimality, for every count that covers it and every 64-bit length. -/
def Obligations.DecodeInvertsEncodeHeader : Prop :=
  ∀ (h : Header) (ib : Buf) (n : Nat), h.wf →
    (∀ k, k < (encodeHeader h).length → (encodeHeader h)[k]? = some (Buf.byte ib k)) →
      (encodeHeader h).length ≤ n → n ≤ 16 →
        decodeHeader ib n = .ok h (encodeHeader h).length (lenClass h.contentLen) false

/-- ENCODE, OBUF copied into IBUF with its count, DECODE: the header the registers hold, HEADER_LEN and LCLASS are
as they were after the ENCODE, the DECODE ends OK and NONMIN is 0. -/
def Obligations.EncodeCopyDecodeKeepsTheHeader : Prop :=
  ∀ (s t : State) (ib : Buf), exec .encode s = .next t →
    (∀ k, k < t.obufLen.toNat → Buf.byte ib k = Buf.byte t.obuf k) →
      ∃ u, exec .decode { t with ibuf := ib, ibufAvail := t.obufLen } = .next u ∧
        hdrOf u = hdrOf s ∧ u.headerLen = t.headerLen ∧ u.lclass = t.lclass ∧ u.status.code = 0 ∧
        u.status.flags.nonmin = false

/-- The converse: a decoded header re-encodes to its own bytes iff its RSV bits are 000 and its length is minimal. -/
def Obligations.ReencodingReproducesMinimalHeaders : Prop :=
  ∀ (ib : Buf) (n : Nat) (h : Header) (hl : Nat) (lc : BitVec 2) (nm : Bool),
    n ≤ 16 → decodeHeader ib n = .ok h hl lc nm →
      (encodeHeader h = (List.range hl).map (Buf.byte ib) ↔
        (Buf.byte ib 0).extractLsb' 4 3 = 0 ∧ nm = false)

/-! ### MASK -/

/-- R121: byte j of the result is byte j XORed with `key[(phase + j) mod 4]`, and the length is kept. -/
def Obligations.XorMaskBytes : Prop :=
  ∀ (k : Word) (p : BitVec 2) (bytes : List Byte),
    (xorMask (keyOfWord k) p bytes).length = bytes.length ∧
      ∀ j, j < bytes.length →
        (xorMask (keyOfWord k) p bytes)[j]?.getD 0 = bytes[j]?.getD 0 ^^^ k.extractLsb' (8 * ((p.toNat + j) % 4)) 8

/-- R122: MASK, word 0x00000003. RANGE, and nothing else changed, when the range does not lie inside PBUF, the sum not wrapping; else
every byte of the range XORed, no other byte changed, the phase advanced, OK, and nothing else changed. -/
def Obligations.MaskEffect : Prop :=
  decode 0x00000003 = .mask ∧ ∀ s : State,
    let start := s.pStart.toNat
    let count := s.pCount.toNat
    (s.cfg.pbufSize < start + count →
      exec .mask s = .next { s with status := { code := 3, need := 0, flags := s.status.flags } }) ∧
    (start + count ≤ s.cfg.pbufSize →
      ∃ t, exec .mask s = .next t ∧
        (∀ j, j < count → pbufByte t (start + j) =
          pbufByte s (start + j) ^^^ s.maskKey.extractLsb' (8 * ((s.maskPhase.toNat + j) % 4)) 8) ∧
        (∀ a, a < start ∨ start + count ≤ a → pbufByte t a = pbufByte s a) ∧
        t.maskPhase.toNat = (s.maskPhase.toNat + count) % 4 ∧
        t.status.code = 0 ∧ t.status.need = 0 ∧ t.status.flags = s.status.flags ∧
        SameHeader s t ∧ SameInfo s t ∧ SameIbuf s t ∧ SameObuf s t ∧ SameRange s t ∧ SameHost s t)

/-- R126: what MASK writes: the range, MASK_PHASE, CODE and NEED. -/
def Obligations.MaskFootprint : Prop :=
  ∀ s t : State, exec .mask s = .next t →
    (∀ a, a < s.pStart.toNat ∨ s.pStart.toNat + s.pCount.toNat ≤ a → pbufByte t a = pbufByte s a) ∧
      SameHeader s t ∧ SameInfo s t ∧ SameIbuf s t ∧ SameObuf s t ∧ SameRange s t ∧
      t.status.flags = s.status.flags ∧ SameHost s t

/-- MASK does not read the header: with other FIN, OPCODE, MASKED, CONTENT_LEN, HEADER_LEN and LCLASS it does the
same to everything else (spec/42_mask_engine.md section on MASK; spec/30_encoding.md section 1). -/
def Obligations.MaskDoesNotReadTheHeader : Prop :=
  ∀ (s t : State) (fin masked : Bool) (op : BitVec 4) (len : BitVec 64) (hl : BitVec 4) (lc : BitVec 2),
    exec .mask s = .next t →
      exec .mask
          { s with fin := fin, masked := masked, opcode := op, contentLen := len, headerLen := hl, lclass := lc } =
        .next { t with fin := fin, masked := masked, opcode := op, contentLen := len, headerLen := hl, lclass := lc }

/-- R123: masking is its own inverse, on byte lists and, with MASK_PHASE set back between them, on two MASKs. -/
def Obligations.MaskingTwiceRestoresTheBytes : Prop :=
  (∀ (k : MaskKey) (p : BitVec 2) (bytes : List Byte), xorMask k p (xorMask k p bytes) = bytes) ∧
    (∀ s t u : State, exec .mask s = .next t → exec .mask { t with maskPhase := s.maskPhase } = .next u → SamePbuf s u)

/-- R124: masking in pieces: `xorMask` of a concatenation, and MASKs over consecutive ranges of any lengths `cs`, the
phase carried from one to the next, which give the bytes and the phase of one MASK over the whole range. -/
def Obligations.MaskingInChunksIsMaskingAtOnce : Prop :=
  (∀ (k : MaskKey) (p : BitVec 2) (as bs : List Byte),
      xorMask k p (as ++ bs) = xorMask k p as ++ xorMask k (p + BitVec.ofNat 2 as.length) bs) ∧
    (∀ (cs : List Word) (s u v : State), s.cfg.legal →
      s.pStart.toNat + (cs.map BitVec.toNat).sum ≤ s.cfg.pbufSize →
      MaskChunks cs s u →
      exec .mask { s with pCount := BitVec.ofNat 32 (cs.map BitVec.toNat).sum } = .next v →
        SamePbuf v u ∧ u.maskPhase = v.maskPhase)

/-- After a DECODE that ends OK, a MASK over the payload bytes the host then puts in PBUF gives
`raw[i] XOR mask[i mod 4]`, the mask being the end of the header, or the bytes unchanged when the header was
unmasked (spec/42_mask_engine.md; one MASK, the chunked case being MaskingInChunksIsMaskingAtOnce). -/
def Obligations.DecodeThenMaskUnmasksThePayload : Prop :=
  ∀ (s t u : State) (raw : Memory) (start count : Word),
    exec .decode s = .next t → t.status.code = 0 →
      start.toNat + count.toNat ≤ s.cfg.pbufSize →
      exec .mask { t with pbuf := raw, pStart := start, pCount := count } = .next u →
        ∀ i, i < count.toNat →
          pbufByte u (start.toNat + i) =
            pbufByte { t with pbuf := raw } (start.toNat + i) ^^^
              (if t.masked then Buf.byte s.ibuf (t.headerLen.toNat - 4 + i % 4) else 0)

/-! ### What holds of every command -/

/-- R26: the flags change only at a DECODE that ends OK, an ENCODE, a reset and an SRESET; the last two clear them; and
no command reads them: one that leaves them alone does the same to the rest whatever they are, and one that writes
them writes the same. -/
def Obligations.FlagsChangeOnlyWithHeaderCommandsAndReset : Prop :=
  (∀ s t : State, step s = .next t → t.status.flags ≠ s.status.flags →
      ∃ op rest, s.pending = op :: rest ∧
        (op = .powerOnReset ∨
          ∃ w, op = .write cmdAddr w ∧
            ((decode w = .decode ∧ t.status.code = 0) ∨ decode w = .encode ∨ decode w = .sreset))) ∧
    (∀ s : State, ∃ t u, exec .sreset s = .next t ∧ t.status.flags = Flags.clear ∧
      performOp .powerOnReset s = .next u ∧ u.status.flags = Flags.clear) ∧
    (∀ (i : Instr) (s t : State) (f : Flags), exec i s = .next t →
      exec i (setFlags f s) = .next t ∨ exec i (setFlags f s) = .next (setFlags f t))

/-- R140: every command ends; one that ends with an error code changed nothing beyond CODE and NEED. NOP leaves the
code as it was. -/
def Obligations.ErrorsChangeOnlyCodeAndNeed : Prop :=
  ∀ (i : Instr) (s : State), ∃ t, exec i s = .next t ∧
    (i = .nop → t.status.code = s.status.code) ∧
    (i ≠ .nop → t.status.code ≠ 0 →
      t = { s with status := { code := t.status.code, need := t.status.need, flags := s.status.flags } })

/-- R142: which code each command leaves, and why, and the value NEED records. -/
def Obligations.StatusCodesAndTheirCauses : Prop :=
  ∀ (i : Instr) (s t : State), i ≠ .nop → exec i s = .next t →
    let need := if s.ibufAvail.toNat < 2 then 2 else headerLenOf (Buf.byte s.ibuf 1)
    (t.status.code = 1 ↔ i = .decode ∧ s.ibufAvail.toNat < need) ∧
      (t.status.code = 1 → t.status.need.toNat = need) ∧
      (t.status.code = 2 ↔ i.isReserved = true) ∧
      (t.status.code = 3 ↔ i = .mask ∧ s.cfg.pbufSize < s.pStart.toNat + s.pCount.toNat) ∧
      t.status.code.toNat ≤ 3 ∧ (t.status.code ≠ 1 → t.status.need = 0) ∧
      (t.status.code ≠ 0 →
        t = { s with status := { code := t.status.code, need := t.status.need, flags := s.status.flags } })

/-- What each command may write, by command (spec/30_encoding.md section 1, the operand table). -/
def Obligations.WhatEachCommandMayWrite : Prop :=
  ∀ (i : Instr) (s t : State), exec i s = .next t →
    SameHost s t ∧
      (i ≠ .decode → i ≠ .sreset → SameHeader s t) ∧
      (i ≠ .decode → i ≠ .encode → i ≠ .sreset → SameInfo s t) ∧
      (i ≠ .decode → i ≠ .encode → i ≠ .mask → i ≠ .sreset → t.maskPhase = s.maskPhase) ∧
      (i ≠ .sreset → SameIbuf s t ∧ SameRange s t) ∧
      (i ≠ .encode → i ≠ .sreset → SameObuf s t) ∧
      (i ≠ .mask → SamePbuf s t)

/-- R28, the writers of HDR_INFO: over a whole step, only a DECODE that ends OK, an ENCODE, reset and SRESET change
HEADER_LEN or LCLASS; in particular no host write to a register does. -/
def Obligations.HdrInfoChangesOnlyWithHeaderCommandsAndReset : Prop :=
  ∀ s t : State, step s = .next t → ¬ SameInfo s t →
    ∃ op rest, s.pending = op :: rest ∧
      (op = .powerOnReset ∨
        ∃ w, op = .write cmdAddr w ∧
          ((decode w = .decode ∧ t.status.code = 0) ∨ decode w = .encode ∨ decode w = .sreset))

/-! ### The host bus -/

/-- What each register of the address map reads as: its fields at the bits the spec gives, and 0 in the reserved
bits (spec/10_state.md sections 2 to 6, spec/20_memory.md section 1). -/
def Obligations.RegisterReadValues : Prop :=
  ∀ (s : State) (a : HAddr),
    let bit := fun b : Bool => if b then 1 else 0
    let v := (busRead s a).toNat
    (byteAddr a = 0x000 → v = 0x57534843) ∧
    (byteAddr a = 0x004 → s.cfg.legal → v = 16 * 2 ^ 24 + 16 * 2 ^ 16 + s.cfg.pbufSize) ∧
    (byteAddr a = 0x008 → v = 0) ∧
    (byteAddr a = 0x00C → v = s.status.code.toNat + 2 ^ 8 * s.status.need.toNat + 2 ^ 16 * bit s.status.flags.nonmin
      + 2 ^ 17 * bit s.status.flags.lenMsb + 2 ^ 18 * bit s.status.flags.opcUnknown
      + 2 ^ 19 * bit s.status.flags.opcControl) ∧
    (byteAddr a = 0x010 → v = bit s.fin + 2 ^ 4 * s.opcode.toNat + 2 ^ 8 * bit s.masked) ∧
    (byteAddr a = 0x014 → v = s.lclass.toNat + 2 ^ 8 * s.headerLen.toNat) ∧
    (byteAddr a = 0x018 → v = s.contentLen.toNat % 2 ^ 32) ∧
    (byteAddr a = 0x01C → v = s.contentLen.toNat / 2 ^ 32) ∧
    (byteAddr a = 0x020 → busRead s a = s.maskKey) ∧
    (byteAddr a = 0x024 → v = s.maskPhase.toNat) ∧
    (byteAddr a = 0x028 → v = s.ibufAvail.toNat) ∧
    (byteAddr a = 0x02C → v = s.obufLen.toNat) ∧
    (byteAddr a = 0x030 → busRead s a = s.pStart) ∧
    (byteAddr a = 0x034 → busRead s a = s.pCount)

/-- A host read completes and changes nothing in the block; its value joins the host's observations (the model's
choice, notes/assumptions/5.md) (spec/20_memory.md section 3). -/
def Obligations.ReadsHaveNoSideEffect : Prop :=
  ∀ (s : State) (a : HAddr) (rest : List HostOp), s.pending = .read a :: rest →
    step s = .next { s with pending := rest, observed := busRead s a :: s.observed }

/-- R52: an unmapped address reads 0, a write to it changes no state, and neither is an error. -/
def Obligations.UnmappedAccessesAreHarmless : Prop :=
  ∀ (s : State) (a : HAddr) (w : Word),
    (0x038 ≤ byteAddr a ∧ byteAddr a < 0x040) ∨ (0x060 ≤ byteAddr a ∧ byteAddr a < 0x1000) ∨
        0x1000 + s.cfg.pbufSize ≤ byteAddr a →
      busRead s a = 0 ∧ performOp (.write a w) s = .next s ∧
        performOp (.read a) s = .next { s with observed := 0 :: s.observed }

/-- Writes to ID, CFG, STATUS, HDR_INFO, OBUF_LEN and the OBUF window change no state (spec/20_memory.md
section 1, access rights). -/
def Obligations.ReadOnlyWritesChangeNothing : Prop :=
  ∀ (s : State) (a : HAddr) (w : Word),
    byteAddr a = 0x000 ∨ byteAddr a = 0x004 ∨ byteAddr a = 0x00C ∨ byteAddr a = 0x014 ∨ byteAddr a = 0x02C ∨
        (0x050 ≤ byteAddr a ∧ byteAddr a < 0x060) →
      performOp (.write a w) s = .next s

/-- A write to a RW register stores exactly its RW fields from the written word, and changes nothing else
(spec/20_memory.md section 1, access rights; spec/10_state.md sections 4 to 6). -/
def Obligations.RegisterWritesStoreTheirFields : Prop :=
  ∀ (s : State) (a : HAddr) (w : Word),
    (byteAddr a = 0x010 → performOp (.write a w) s =
      .next { s with fin := w.getLsbD 0, opcode := w.extractLsb' 4 4, masked := w.getLsbD 8 }) ∧
    (byteAddr a = 0x018 → ∃ t, performOp (.write a w) s = .next t ∧ t = { s with contentLen := t.contentLen } ∧
      t.contentLen.toNat = s.contentLen.toNat / 2 ^ 32 * 2 ^ 32 + w.toNat) ∧
    (byteAddr a = 0x01C → ∃ t, performOp (.write a w) s = .next t ∧ t = { s with contentLen := t.contentLen } ∧
      t.contentLen.toNat = w.toNat * 2 ^ 32 + s.contentLen.toNat % 2 ^ 32) ∧
    (byteAddr a = 0x020 → performOp (.write a w) s = .next { s with maskKey := w }) ∧
    (byteAddr a = 0x024 → ∃ t, performOp (.write a w) s = .next t ∧ t = { s with maskPhase := t.maskPhase } ∧
      t.maskPhase.toNat = w.toNat % 4) ∧
    (byteAddr a = 0x030 → performOp (.write a w) s = .next { s with pStart := w }) ∧
    (byteAddr a = 0x034 → performOp (.write a w) s = .next { s with pCount := w })

/-- R36: a host write of word w to IBUF_AVAIL stores min(w[4:0], 16) and nothing else; a read gives AVAIL, the reserved
bits 0; a step changes AVAIL only by such a write, an SRESET or a reset, after which it is 0. -/
def Obligations.IbufAvailWriteIsLegalised : Prop :=
  (∀ (s : State) (a : HAddr) (w : Word), byteAddr a = 0x028 →
      (busRead s a).toNat = s.ibufAvail.toNat ∧
      ∃ t, performOp (.write a w) s = .next t ∧ t = { s with ibufAvail := t.ibufAvail } ∧
        t.ibufAvail.toNat = min (w.toNat % 32) 16) ∧
    (∀ s t : State, step s = .next t → t.ibufAvail ≠ s.ibufAvail →
      ∃ op rest, s.pending = op :: rest ∧
        ((∃ a w, op = .write a w ∧ byteAddr a = 0x028) ∨
          ((∃ w, op = .write cmdAddr w ∧ decode w = .sreset) ∨ op = .powerOnReset) ∧ t.ibufAvail = 0))

/-- R59: word k of the IBUF window: a write stores its four lanes in IBUF[4k .. 4k+3] and changes nothing else,
IBUF_AVAIL included; a read gives them back in the same lanes. -/
def Obligations.IbufWindowLanes : Prop :=
  ∀ (s : State) (a : HAddr) (w : Word) (k : Nat), k < 4 → byteAddr a = 0x040 + 4 * k →
    (busRead s a = Buf.byte s.ibuf (4 * k + 3) ++ Buf.byte s.ibuf (4 * k + 2) ++ Buf.byte s.ibuf (4 * k + 1)
      ++ Buf.byte s.ibuf (4 * k)) ∧
      ∃ t, performOp (.write a w) s = .next t ∧ t = { s with ibuf := t.ibuf } ∧
        (∀ j, j < 4 → Buf.byte t.ibuf (4 * k + j) = w.extractLsb' (8 * j) 8) ∧
        (∀ i, i < 4 * k ∨ 4 * k + 4 ≤ i → Buf.byte t.ibuf i = Buf.byte s.ibuf i)

/-- R60: word k of the OBUF window reads OBUF[4k .. 4k+3] in little-endian lanes, and a write to it is ignored. -/
def Obligations.ObufWindowLanes : Prop :=
  ∀ (s : State) (a : HAddr) (w : Word) (k : Nat), k < 4 → byteAddr a = 0x050 + 4 * k →
    (busRead s a = Buf.byte s.obuf (4 * k + 3) ++ Buf.byte s.obuf (4 * k + 2) ++ Buf.byte s.obuf (4 * k + 1)
      ++ Buf.byte s.obuf (4 * k)) ∧
      performOp (.write a w) s = .next s

/-- R61: word k of the PBUF window: a write stores its four lanes in PBUF[4k .. 4k+3], changes no other byte and
nothing else; a read gives the four bytes; at and past PBUF_SIZE the address is unmapped. -/
def Obligations.PbufWindowLanes : Prop :=
  ∀ (s : State) (a : HAddr) (w : Word) (k : Nat), s.cfg.legal → byteAddr a = 0x1000 + 4 * k →
    (4 * k < s.cfg.pbufSize →
      (busRead s a = pbufByte s (4 * k + 3) ++ pbufByte s (4 * k + 2) ++ pbufByte s (4 * k + 1) ++ pbufByte s (4 * k)) ∧
        ∃ t, performOp (.write a w) s = .next t ∧ t = { s with pbuf := t.pbuf } ∧
          (∀ j, j < 4 → pbufByte t (4 * k + j) = w.extractLsb' (8 * j) 8) ∧
          (∀ i, i < 4 * k ∨ 4 * k + 4 ≤ i → pbufByte t i = pbufByte s i)) ∧
      (s.cfg.pbufSize ≤ 4 * k → busRead s a = 0 ∧ performOp (.write a w) s = .next s)

/-- R67: after a host write to a RW register or to the IBUF or PBUF window, a read of the same word returns what was
stored, also when the host reads or writes other words (not CMD) in between, since those change no word but their
own. -/
def Obligations.ReadAfterWriteReturnsWhatWasStored : Prop :=
  (∀ (s t : State) (a b : HAddr) (w : Word),
    ((a ≠ b ∧ b ≠ cmdAddr ∧ performOp (.write b w) s = .next t) ∨ performOp (.read b) s = .next t) →
      busRead t a = busRead s a) ∧
  ∀ (s t : State) (a : HAddr) (w : Word), performOp (.write a w) s = .next t →
    (byteAddr a = 0x010 → busRead t a = w &&& 0x1F1) ∧
    (byteAddr a = 0x018 ∨ byteAddr a = 0x01C ∨ byteAddr a = 0x020 ∨ byteAddr a = 0x030 ∨ byteAddr a = 0x034 →
      busRead t a = w) ∧
    (byteAddr a = 0x024 → busRead t a = w &&& 0x3) ∧
    (byteAddr a = 0x028 → (busRead t a).toNat = min (w.toNat % 32) 16) ∧
    (0x040 ≤ byteAddr a → byteAddr a < 0x050 → busRead t a = w) ∧
    (0x1000 ≤ byteAddr a → byteAddr a < 0x1000 + s.cfg.pbufSize → busRead t a = w)

/-- Two host writes to different addresses, neither of them CMD, can be made in either order
(spec/70_reset_and_hazards.md section 2). -/
def Obligations.WritesBeforeACommandCommute : Prop :=
  ∀ (s t u : State) (a b : HAddr) (v w : Word), a ≠ b → a ≠ cmdAddr → b ≠ cmdAddr →
    performOp (.write a v) s = .next t → performOp (.write b w) t = .next u →
      ∃ t', performOp (.write b w) s = .next t' ∧ performOp (.write a v) t' = .next u

/-- If a masked header's key stands at a 4-aligned IBUF offset, the IBUF word read there is the MASK_KEY value DECODE
produces (spec/20_memory.md section 2). -/
def Obligations.AlignedKeyWordEqualsMaskKey : Prop :=
  ∀ (s t : State) (a : HAddr) (k : Nat), exec .decode s = .next t → t.status.code = 0 → t.masked = true →
    t.headerLen.toNat - 4 = 4 * k → byteAddr a = 0x040 + 4 * k → busRead s a = t.maskKey
end

