-- ==== Sys2Proof/Laws/State.lean ====
section
/-! SUPPORT. Sys2Proof/Laws/State.lean: what each shared update of the state leaves in each field. -/
namespace Sys2Proof.Machine

variable (s : State)

@[simp] theorem Status.word_clear : Status.word Status.clear = 0 := by decide

/-! ### setStatus -/

@[simp] theorem setStatus_fin (c n : BitVec 4) : (setStatus c n s).fin = s.fin := rfl
@[simp] theorem setStatus_opcode (c n : BitVec 4) : (setStatus c n s).opcode = s.opcode := rfl
@[simp] theorem setStatus_masked (c n : BitVec 4) : (setStatus c n s).masked = s.masked := rfl
@[simp] theorem setStatus_contentLen (c n : BitVec 4) : (setStatus c n s).contentLen = s.contentLen := rfl
@[simp] theorem setStatus_maskKey (c n : BitVec 4) : (setStatus c n s).maskKey = s.maskKey := rfl
@[simp] theorem setStatus_headerLen (c n : BitVec 4) : (setStatus c n s).headerLen = s.headerLen := rfl
@[simp] theorem setStatus_lclass (c n : BitVec 4) : (setStatus c n s).lclass = s.lclass := rfl
@[simp] theorem setStatus_status (c n : BitVec 4) :
    (setStatus c n s).status = { s.status with code := c, need := n } := rfl
@[simp] theorem setStatus_maskPhase (c n : BitVec 4) : (setStatus c n s).maskPhase = s.maskPhase := rfl
@[simp] theorem setStatus_ibuf (c n : BitVec 4) : (setStatus c n s).ibuf = s.ibuf := rfl
@[simp] theorem setStatus_ibufAvail (c n : BitVec 4) : (setStatus c n s).ibufAvail = s.ibufAvail := rfl
@[simp] theorem setStatus_obuf (c n : BitVec 4) : (setStatus c n s).obuf = s.obuf := rfl
@[simp] theorem setStatus_obufLen (c n : BitVec 4) : (setStatus c n s).obufLen = s.obufLen := rfl
@[simp] theorem setStatus_pStart (c n : BitVec 4) : (setStatus c n s).pStart = s.pStart := rfl
@[simp] theorem setStatus_pCount (c n : BitVec 4) : (setStatus c n s).pCount = s.pCount := rfl
@[simp] theorem setStatus_pbuf (c n : BitVec 4) : (setStatus c n s).pbuf = s.pbuf := rfl
@[simp] theorem setStatus_cfg (c n : BitVec 4) : (setStatus c n s).cfg = s.cfg := rfl
@[simp] theorem setStatus_powerOns (c n : BitVec 4) : (setStatus c n s).powerOns = s.powerOns := rfl
@[simp] theorem setStatus_pending (c n : BitVec 4) : (setStatus c n s).pending = s.pending := rfl
@[simp] theorem setStatus_observed (c n : BitVec 4) : (setStatus c n s).observed = s.observed := rfl

/-! ### setFlags -/

@[simp] theorem setFlags_fin (f : Flags) : (setFlags f s).fin = s.fin := rfl
@[simp] theorem setFlags_opcode (f : Flags) : (setFlags f s).opcode = s.opcode := rfl
@[simp] theorem setFlags_masked (f : Flags) : (setFlags f s).masked = s.masked := rfl
@[simp] theorem setFlags_contentLen (f : Flags) : (setFlags f s).contentLen = s.contentLen := rfl
@[simp] theorem setFlags_maskKey (f : Flags) : (setFlags f s).maskKey = s.maskKey := rfl
@[simp] theorem setFlags_headerLen (f : Flags) : (setFlags f s).headerLen = s.headerLen := rfl
@[simp] theorem setFlags_lclass (f : Flags) : (setFlags f s).lclass = s.lclass := rfl
@[simp] theorem setFlags_status (f : Flags) : (setFlags f s).status = { s.status with flags := f } := rfl
@[simp] theorem setFlags_maskPhase (f : Flags) : (setFlags f s).maskPhase = s.maskPhase := rfl
@[simp] theorem setFlags_ibuf (f : Flags) : (setFlags f s).ibuf = s.ibuf := rfl
@[simp] theorem setFlags_ibufAvail (f : Flags) : (setFlags f s).ibufAvail = s.ibufAvail := rfl
@[simp] theorem setFlags_obuf (f : Flags) : (setFlags f s).obuf = s.obuf := rfl
@[simp] theorem setFlags_obufLen (f : Flags) : (setFlags f s).obufLen = s.obufLen := rfl
@[simp] theorem setFlags_pStart (f : Flags) : (setFlags f s).pStart = s.pStart := rfl
@[simp] theorem setFlags_pCount (f : Flags) : (setFlags f s).pCount = s.pCount := rfl
@[simp] theorem setFlags_pbuf (f : Flags) : (setFlags f s).pbuf = s.pbuf := rfl
@[simp] theorem setFlags_cfg (f : Flags) : (setFlags f s).cfg = s.cfg := rfl
@[simp] theorem setFlags_powerOns (f : Flags) : (setFlags f s).powerOns = s.powerOns := rfl
@[simp] theorem setFlags_pending (f : Flags) : (setFlags f s).pending = s.pending := rfl
@[simp] theorem setFlags_observed (f : Flags) : (setFlags f s).observed = s.observed := rfl

/-! ### writePbuf -/

@[simp] theorem writePbuf_fin (a : Nat) (bs : List Byte) : (writePbuf a bs s).fin = s.fin := rfl
@[simp] theorem writePbuf_opcode (a : Nat) (bs : List Byte) : (writePbuf a bs s).opcode = s.opcode := rfl
@[simp] theorem writePbuf_masked (a : Nat) (bs : List Byte) : (writePbuf a bs s).masked = s.masked := rfl
@[simp] theorem writePbuf_contentLen (a : Nat) (bs : List Byte) : (writePbuf a bs s).contentLen = s.contentLen := rfl
@[simp] theorem writePbuf_maskKey (a : Nat) (bs : List Byte) : (writePbuf a bs s).maskKey = s.maskKey := rfl
@[simp] theorem writePbuf_headerLen (a : Nat) (bs : List Byte) : (writePbuf a bs s).headerLen = s.headerLen := rfl
@[simp] theorem writePbuf_lclass (a : Nat) (bs : List Byte) : (writePbuf a bs s).lclass = s.lclass := rfl
@[simp] theorem writePbuf_status (a : Nat) (bs : List Byte) : (writePbuf a bs s).status = s.status := rfl
@[simp] theorem writePbuf_maskPhase (a : Nat) (bs : List Byte) : (writePbuf a bs s).maskPhase = s.maskPhase := rfl
@[simp] theorem writePbuf_ibuf (a : Nat) (bs : List Byte) : (writePbuf a bs s).ibuf = s.ibuf := rfl
@[simp] theorem writePbuf_ibufAvail (a : Nat) (bs : List Byte) : (writePbuf a bs s).ibufAvail = s.ibufAvail := rfl
@[simp] theorem writePbuf_obuf (a : Nat) (bs : List Byte) : (writePbuf a bs s).obuf = s.obuf := rfl
@[simp] theorem writePbuf_obufLen (a : Nat) (bs : List Byte) : (writePbuf a bs s).obufLen = s.obufLen := rfl
@[simp] theorem writePbuf_pStart (a : Nat) (bs : List Byte) : (writePbuf a bs s).pStart = s.pStart := rfl
@[simp] theorem writePbuf_pCount (a : Nat) (bs : List Byte) : (writePbuf a bs s).pCount = s.pCount := rfl
@[simp] theorem writePbuf_pbuf (a : Nat) (bs : List Byte) :
    (writePbuf a bs s).pbuf = Memory.insertList s.pbuf a bs := rfl
@[simp] theorem writePbuf_cfg (a : Nat) (bs : List Byte) : (writePbuf a bs s).cfg = s.cfg := rfl
@[simp] theorem writePbuf_powerOns (a : Nat) (bs : List Byte) : (writePbuf a bs s).powerOns = s.powerOns := rfl
@[simp] theorem writePbuf_pending (a : Nat) (bs : List Byte) : (writePbuf a bs s).pending = s.pending := rfl
@[simp] theorem writePbuf_observed (a : Nat) (bs : List Byte) : (writePbuf a bs s).observed = s.observed := rfl

/-! ### loadHeader -/

@[simp] theorem loadHeader_fin (h : Header) (hl : Nat) (lc : BitVec 2) (nm : Bool) :
    (loadHeader h hl lc nm s).fin = h.fin := rfl
@[simp] theorem loadHeader_opcode (h : Header) (hl : Nat) (lc : BitVec 2) (nm : Bool) :
    (loadHeader h hl lc nm s).opcode = h.opcode := rfl
@[simp] theorem loadHeader_masked (h : Header) (hl : Nat) (lc : BitVec 2) (nm : Bool) :
    (loadHeader h hl lc nm s).masked = h.isMasked := rfl
@[simp] theorem loadHeader_contentLen (h : Header) (hl : Nat) (lc : BitVec 2) (nm : Bool) :
    (loadHeader h hl lc nm s).contentLen = h.contentLen := rfl
@[simp] theorem loadHeader_maskKey (h : Header) (hl : Nat) (lc : BitVec 2) (nm : Bool) :
    (loadHeader h hl lc nm s).maskKey = wordOfKey h.mask := rfl
@[simp] theorem loadHeader_headerLen (h : Header) (hl : Nat) (lc : BitVec 2) (nm : Bool) :
    (loadHeader h hl lc nm s).headerLen = BitVec.ofNat 4 hl := rfl
@[simp] theorem loadHeader_lclass (h : Header) (hl : Nat) (lc : BitVec 2) (nm : Bool) :
    (loadHeader h hl lc nm s).lclass = lc := rfl
@[simp] theorem loadHeader_status (h : Header) (hl : Nat) (lc : BitVec 2) (nm : Bool) :
    (loadHeader h hl lc nm s).status = { s.status with flags := headerFlags nm h.contentLen h.opcode } := rfl
@[simp] theorem loadHeader_maskPhase (h : Header) (hl : Nat) (lc : BitVec 2) (nm : Bool) :
    (loadHeader h hl lc nm s).maskPhase = 0 := rfl
@[simp] theorem loadHeader_ibuf (h : Header) (hl : Nat) (lc : BitVec 2) (nm : Bool) :
    (loadHeader h hl lc nm s).ibuf = s.ibuf := rfl
@[simp] theorem loadHeader_ibufAvail (h : Header) (hl : Nat) (lc : BitVec 2) (nm : Bool) :
    (loadHeader h hl lc nm s).ibufAvail = s.ibufAvail := rfl
@[simp] theorem loadHeader_obuf (h : Header) (hl : Nat) (lc : BitVec 2) (nm : Bool) :
    (loadHeader h hl lc nm s).obuf = s.obuf := rfl
@[simp] theorem loadHeader_obufLen (h : Header) (hl : Nat) (lc : BitVec 2) (nm : Bool) :
    (loadHeader h hl lc nm s).obufLen = s.obufLen := rfl
@[simp] theorem loadHeader_pStart (h : Header) (hl : Nat) (lc : BitVec 2) (nm : Bool) :
    (loadHeader h hl lc nm s).pStart = s.pStart := rfl
@[simp] theorem loadHeader_pCount (h : Header) (hl : Nat) (lc : BitVec 2) (nm : Bool) :
    (loadHeader h hl lc nm s).pCount = s.pCount := rfl
@[simp] theorem loadHeader_pbuf (h : Header) (hl : Nat) (lc : BitVec 2) (nm : Bool) :
    (loadHeader h hl lc nm s).pbuf = s.pbuf := rfl
@[simp] theorem loadHeader_cfg (h : Header) (hl : Nat) (lc : BitVec 2) (nm : Bool) :
    (loadHeader h hl lc nm s).cfg = s.cfg := rfl
@[simp] theorem loadHeader_powerOns (h : Header) (hl : Nat) (lc : BitVec 2) (nm : Bool) :
    (loadHeader h hl lc nm s).powerOns = s.powerOns := rfl
@[simp] theorem loadHeader_pending (h : Header) (hl : Nat) (lc : BitVec 2) (nm : Bool) :
    (loadHeader h hl lc nm s).pending = s.pending := rfl
@[simp] theorem loadHeader_observed (h : Header) (hl : Nat) (lc : BitVec 2) (nm : Bool) :
    (loadHeader h hl lc nm s).observed = s.observed := rfl

/-! ### storeHeader -/

@[simp] theorem storeHeader_fin (bs : List Byte) : (storeHeader bs s).fin = s.fin := rfl
@[simp] theorem storeHeader_opcode (bs : List Byte) : (storeHeader bs s).opcode = s.opcode := rfl
@[simp] theorem storeHeader_masked (bs : List Byte) : (storeHeader bs s).masked = s.masked := rfl
@[simp] theorem storeHeader_contentLen (bs : List Byte) : (storeHeader bs s).contentLen = s.contentLen := rfl
@[simp] theorem storeHeader_maskKey (bs : List Byte) : (storeHeader bs s).maskKey = s.maskKey := rfl
@[simp] theorem storeHeader_headerLen (bs : List Byte) :
    (storeHeader bs s).headerLen = BitVec.ofNat 4 bs.length := rfl
@[simp] theorem storeHeader_lclass (bs : List Byte) : (storeHeader bs s).lclass = lenClass s.contentLen := rfl
@[simp] theorem storeHeader_status (bs : List Byte) :
    (storeHeader bs s).status = { s.status with flags := headerFlags false s.contentLen s.opcode } := rfl
@[simp] theorem storeHeader_maskPhase (bs : List Byte) : (storeHeader bs s).maskPhase = 0 := rfl
@[simp] theorem storeHeader_ibuf (bs : List Byte) : (storeHeader bs s).ibuf = s.ibuf := rfl
@[simp] theorem storeHeader_ibufAvail (bs : List Byte) : (storeHeader bs s).ibufAvail = s.ibufAvail := rfl
@[simp] theorem storeHeader_obuf (bs : List Byte) : (storeHeader bs s).obuf = Buf.ofBytes bs := rfl
@[simp] theorem storeHeader_obufLen (bs : List Byte) : (storeHeader bs s).obufLen = BitVec.ofNat 5 bs.length := rfl
@[simp] theorem storeHeader_pStart (bs : List Byte) : (storeHeader bs s).pStart = s.pStart := rfl
@[simp] theorem storeHeader_pCount (bs : List Byte) : (storeHeader bs s).pCount = s.pCount := rfl
@[simp] theorem storeHeader_pbuf (bs : List Byte) : (storeHeader bs s).pbuf = s.pbuf := rfl
@[simp] theorem storeHeader_cfg (bs : List Byte) : (storeHeader bs s).cfg = s.cfg := rfl
@[simp] theorem storeHeader_powerOns (bs : List Byte) : (storeHeader bs s).powerOns = s.powerOns := rfl
@[simp] theorem storeHeader_pending (bs : List Byte) : (storeHeader bs s).pending = s.pending := rfl
@[simp] theorem storeHeader_observed (bs : List Byte) : (storeHeader bs s).observed = s.observed := rfl

/-! ### clearAllButPbuf -/

@[simp] theorem clearAllButPbuf_fin : (clearAllButPbuf s).fin = false := rfl
@[simp] theorem clearAllButPbuf_opcode : (clearAllButPbuf s).opcode = 0 := rfl
@[simp] theorem clearAllButPbuf_masked : (clearAllButPbuf s).masked = false := rfl
@[simp] theorem clearAllButPbuf_contentLen : (clearAllButPbuf s).contentLen = 0 := rfl
@[simp] theorem clearAllButPbuf_maskKey : (clearAllButPbuf s).maskKey = 0 := rfl
@[simp] theorem clearAllButPbuf_headerLen : (clearAllButPbuf s).headerLen = 0 := rfl
@[simp] theorem clearAllButPbuf_lclass : (clearAllButPbuf s).lclass = 0 := rfl
@[simp] theorem clearAllButPbuf_status : (clearAllButPbuf s).status = Status.clear := rfl
@[simp] theorem clearAllButPbuf_maskPhase : (clearAllButPbuf s).maskPhase = 0 := rfl
@[simp] theorem clearAllButPbuf_ibuf : (clearAllButPbuf s).ibuf = Vector.replicate 16 0 := rfl
@[simp] theorem clearAllButPbuf_ibufAvail : (clearAllButPbuf s).ibufAvail = 0 := rfl
@[simp] theorem clearAllButPbuf_obuf : (clearAllButPbuf s).obuf = Vector.replicate 16 0 := rfl
@[simp] theorem clearAllButPbuf_obufLen : (clearAllButPbuf s).obufLen = 0 := rfl
@[simp] theorem clearAllButPbuf_pStart : (clearAllButPbuf s).pStart = 0 := rfl
@[simp] theorem clearAllButPbuf_pCount : (clearAllButPbuf s).pCount = 0 := rfl
@[simp] theorem clearAllButPbuf_pbuf : (clearAllButPbuf s).pbuf = s.pbuf := rfl
@[simp] theorem clearAllButPbuf_cfg : (clearAllButPbuf s).cfg = s.cfg := rfl
@[simp] theorem clearAllButPbuf_powerOns : (clearAllButPbuf s).powerOns = s.powerOns := rfl
@[simp] theorem clearAllButPbuf_pending : (clearAllButPbuf s).pending = s.pending := rfl
@[simp] theorem clearAllButPbuf_observed : (clearAllButPbuf s).observed = s.observed := rfl

/-! ### powerOnReset -/

@[simp] theorem powerOnReset_fin : (powerOnReset s).fin = false := rfl
@[simp] theorem powerOnReset_opcode : (powerOnReset s).opcode = 0 := rfl
@[simp] theorem powerOnReset_masked : (powerOnReset s).masked = false := rfl
@[simp] theorem powerOnReset_contentLen : (powerOnReset s).contentLen = 0 := rfl
@[simp] theorem powerOnReset_maskKey : (powerOnReset s).maskKey = 0 := rfl
@[simp] theorem powerOnReset_headerLen : (powerOnReset s).headerLen = 0 := rfl
@[simp] theorem powerOnReset_lclass : (powerOnReset s).lclass = 0 := rfl
@[simp] theorem powerOnReset_status : (powerOnReset s).status = Status.clear := rfl
@[simp] theorem powerOnReset_maskPhase : (powerOnReset s).maskPhase = 0 := rfl
@[simp] theorem powerOnReset_ibuf : (powerOnReset s).ibuf = Vector.replicate 16 0 := rfl
@[simp] theorem powerOnReset_ibufAvail : (powerOnReset s).ibufAvail = 0 := rfl
@[simp] theorem powerOnReset_obuf : (powerOnReset s).obuf = Vector.replicate 16 0 := rfl
@[simp] theorem powerOnReset_obufLen : (powerOnReset s).obufLen = 0 := rfl
@[simp] theorem powerOnReset_pStart : (powerOnReset s).pStart = 0 := rfl
@[simp] theorem powerOnReset_pCount : (powerOnReset s).pCount = 0 := rfl
@[simp] theorem powerOnReset_pbuf : (powerOnReset s).pbuf = [] := rfl
@[simp] theorem powerOnReset_cfg : (powerOnReset s).cfg = s.cfg := rfl
@[simp] theorem powerOnReset_powerOns : (powerOnReset s).powerOns = s.powerOns + 1 := rfl
@[simp] theorem powerOnReset_pending : (powerOnReset s).pending = s.pending := rfl
@[simp] theorem powerOnReset_observed : (powerOnReset s).observed = s.observed := rfl

end Sys2Proof.Machine
end

