-- ==== Sys2Proof/Laws/Memory.lean ====
section
/-! SUPPORT. Sys2Proof/Laws/Memory.lean: PBUF: reading after writing, and that every write keeps the
canonical form. -/
namespace Sys2Proof.Machine

theorem Memory.lookup_insert (m : Memory) (a : Nat) (v : Byte) (b : Nat) :
    Memory.lookup (Memory.insert m a v) b = if b = a then some v else Memory.lookup m b := by
  induction m with
  | nil => rfl
  | cons c m ih =>
    obtain ⟨k, u⟩ := c
    simp only [Memory.insert]
    split
    · rfl
    · split
      · next h => subst h; simp only [Memory.lookup]; split <;> rfl
      · next h =>
        simp only [Memory.lookup, ih]
        by_cases hb : b = k
        · subst hb; simp [Ne.symm h]
        · simp [hb]

/-- Reading after writing a list of bytes: the byte of the list inside its range, the old cell outside. -/
theorem Memory.lookup_insertList (m : Memory) (a : Nat) (bs : List Byte) (b : Nat) :
    Memory.lookup (Memory.insertList m a bs) b =
      if a ≤ b ∧ b < a + bs.length then bs[b - a]? else Memory.lookup m b := by
  induction bs generalizing m a with
  | nil => simp only [Memory.insertList, List.length_nil]; rw [if_neg (by omega)]
  | cons v vs ih =>
    simp only [Memory.insertList, ih, Memory.lookup_insert, List.length_cons]
    by_cases hb : b = a
    · subst hb; simp
    · by_cases h : a + 1 ≤ b ∧ b < a + 1 + vs.length
      · rw [if_pos h, if_pos (by omega), show b - a = (b - (a + 1)) + 1 by omega]; rfl
      · rw [if_neg h, if_neg hb, if_neg (by omega)]

theorem Memory.risingAbove_insert (m : Memory) (c a : Nat) (v : Byte) (hc : c < a)
    (h : Memory.risingAbove c m = true) : Memory.risingAbove c (Memory.insert m a v) = true := by
  induction m generalizing c with
  | nil => simp [Memory.insert, Memory.risingAbove, hc]
  | cons d m ih =>
    obtain ⟨k, u⟩ := d
    simp only [Memory.risingAbove, Bool.and_eq_true, decide_eq_true_eq] at h
    simp only [Memory.insert]
    split
    · next hak => simp [Memory.risingAbove, hc, hak, h.2]
    · split
      · next _ hak => subst hak; simp [Memory.risingAbove, hc, h.2]
      · simp only [Memory.risingAbove, Bool.and_eq_true, decide_eq_true_eq]
        exact ⟨h.1, ih k (by omega) h.2⟩

/-- A write keeps the canonical form. -/
theorem Memory.wf_insert (m : Memory) (a : Nat) (v : Byte) (h : Memory.wf m = true) :
    Memory.wf (Memory.insert m a v) = true := by
  cases m with
  | nil => rfl
  | cons d m =>
    obtain ⟨k, u⟩ := d
    simp only [Memory.insert]
    split
    · next hak => simpa [Memory.wf, Memory.risingAbove, hak] using h
    · split
      · next _ hak => subst hak; exact h
      · exact Memory.risingAbove_insert m k a v (by omega) h

/-- A write of a list of bytes keeps the canonical form. -/
theorem Memory.wf_insertList (m : Memory) (a : Nat) (bs : List Byte) (h : Memory.wf m = true) :
    Memory.wf (Memory.insertList m a bs) = true := by
  induction bs generalizing m a with
  | nil => exact h
  | cons v vs ih => exact ih _ _ (Memory.wf_insert m a v h)

theorem Memory.within_insert (n : Nat) (m : Memory) (a : Nat) (v : Byte) (ha : a < n)
    (h : Memory.within n m = true) : Memory.within n (Memory.insert m a v) = true := by
  induction m with
  | nil => simp [Memory.within, Memory.insert, ha]
  | cons d m ih =>
    obtain ⟨k, u⟩ := d
    have hm : k < n ∧ Memory.within n m = true := by simpa [Memory.within] using h
    simp only [Memory.insert]
    split
    · simpa [Memory.within, ha] using h
    · split
      · simpa [Memory.within, ha] using hm.2
      · have := ih hm.2
        simp only [Memory.within] at this
        simp [Memory.within, hm.1, this]

/-- A write of a list of bytes inside PBUF lists no offset outside it. -/
theorem Memory.within_insertList (n : Nat) (m : Memory) (a : Nat) (bs : List Byte) (ha : a + bs.length ≤ n)
    (h : Memory.within n m = true) : Memory.within n (Memory.insertList m a bs) = true := by
  induction bs generalizing m a with
  | nil => exact h
  | cons v vs ih =>
    simp only [List.length_cons] at ha
    exact ih _ _ (by omega) (Memory.within_insert n m a v (by omega) h)

/-- Writes to different offsets can be made in either order. -/
theorem Memory.insert_comm (m : Memory) (a b : Nat) (u v : Byte) (hab : a ≠ b) :
    Memory.insert (Memory.insert m a u) b v = Memory.insert (Memory.insert m b v) a u := by
  induction m with
  | nil => grind [Memory.insert]
  | cons d m ih => grind [Memory.insert]

theorem pbufByte_writePbuf (s : State) (a : Nat) (bs : List Byte) (b : Nat) :
    pbufByte (writePbuf a bs s) b = if a ≤ b ∧ b < a + bs.length then bs[b - a]?.getD 0 else pbufByte s b := by
  simp only [pbufByte, writePbuf_pbuf, Memory.lookup_insertList]
  split
  · next h =>
    have : b - a < bs.length := by omega
    simp [this]
  · rfl

/-- `pbufByte` reads nothing but PBUF and the number of the power-on. -/
theorem pbufByte_congr {s t : State} (hp : t.pbuf = s.pbuf) (hk : t.powerOns = s.powerOns) (a : Nat) :
    pbufByte t a = pbufByte s a := by
  simp only [pbufByte, unwrittenByte, hp, hk]

@[simp] theorem pbufBytes_length (s : State) (a n : Nat) : (pbufBytes s a n).length = n := by
  induction n generalizing a with
  | zero => rfl
  | succ n ih => simp [pbufBytes, ih]

theorem pbufBytes_getElem? (s : State) (a n j : Nat) (h : j < n) :
    (pbufBytes s a n)[j]? = some (pbufByte s (a + j)) := by
  induction n generalizing a j with
  | zero => omega
  | succ n ih =>
    cases j with
    | zero => simp [pbufBytes]
    | succ j =>
      simp only [pbufBytes, List.getElem?_cons_succ]
      rw [ih (a + 1) j (by omega), show a + 1 + j = a + (j + 1) by omega]

/-- `pbufBytes` reads nothing but PBUF and the number of the power-on. -/
theorem pbufBytes_congr {s t : State} (hp : t.pbuf = s.pbuf) (hk : t.powerOns = s.powerOns) (a n : Nat) :
    pbufBytes t a n = pbufBytes s a n := by
  induction n generalizing a with
  | zero => rfl
  | succ n ih => simp only [pbufBytes, ih, pbufByte_congr hp hk]

theorem Memory.insertList_insert (m : Memory) (a b : Nat) (v : Byte) (bs : List Byte)
    (h : b < a ∨ a + bs.length ≤ b) :
    Memory.insertList (Memory.insert m b v) a bs = Memory.insert (Memory.insertList m a bs) b v := by
  induction bs generalizing m a with
  | nil => rfl
  | cons c cs ih =>
    simp only [Memory.insertList, List.length_cons] at h ⊢
    rw [Memory.insert_comm m b a v c (by omega), ih _ _ (by omega)]

/-- Writes to disjoint ranges can be made in either order. -/
theorem Memory.insertList_comm (m : Memory) (a b : Nat) (as bs : List Byte)
    (h : b + bs.length ≤ a ∨ a + as.length ≤ b) :
    Memory.insertList (Memory.insertList m a as) b bs = Memory.insertList (Memory.insertList m b bs) a as := by
  induction bs generalizing m b with
  | nil => rfl
  | cons c cs ih =>
    simp only [Memory.insertList, List.length_cons] at h ⊢
    rw [← Memory.insertList_insert _ _ _ _ _ (by omega), ih _ _ (by omega)]

end Sys2Proof.Machine
end

