-- ==== Sys2Proof/Laws/Codec.lean ====
section
/-! SUPPORT. Sys2Proof/Laws/Codec.lean: byte lanes, header buffers, and what the codec's functions can answer. -/
namespace Sys2Proof.Machine

/-! ### Lanes and keys -/

theorem getLsbD_ofLanes (b0 b1 b2 b3 : Byte) (i : Nat) :
    (ofLanes b0 b1 b2 b3).getLsbD i =
      if i < 8 then b0.getLsbD i
      else if i < 16 then b1.getLsbD (i - 8)
      else if i < 24 then b2.getLsbD (i - 16)
      else b3.getLsbD (i - 24) := by
  simp only [ofLanes, BitVec.getLsbD_append]
  by_cases h0 : i < 8
  · simp [h0]
  · by_cases h1 : i < 16
    · simp [h0, h1, show i - 8 < 8 by omega]
    · by_cases h2 : i < 24
      · simp [h0, h1, h2, show ¬ i - 8 < 8 by omega, show i - 8 - 8 = i - 16 by omega, show i - 16 < 8 by omega]
      · simp [h0, h1, h2, show ¬ i - 8 < 8 by omega, show ¬ i - 8 - 8 < 8 by omega,
          show i - 8 - 8 - 8 = i - 24 by omega]

/-- Lane `j` of the word of four bytes is the byte number `j` (R54). -/
theorem lane_ofLanes (b0 b1 b2 b3 : Byte) :
    lane (ofLanes b0 b1 b2 b3) 0 = b0 ∧ lane (ofLanes b0 b1 b2 b3) 1 = b1 ∧
      lane (ofLanes b0 b1 b2 b3) 2 = b2 ∧ lane (ofLanes b0 b1 b2 b3) 3 = b3 := by
  refine ⟨?_, ?_, ?_, ?_⟩ <;> apply BitVec.eq_of_getLsbD_eq <;> intro i hi <;>
    simp only [lane, BitVec.getLsbD_extractLsb', getLsbD_ofLanes, hi, decide_true, Bool.true_and]
  · rw [if_pos (by omega), show 8 * 0 + i = i by omega]
  · rw [if_neg (by omega), if_pos (by omega), show 8 * 1 + i - 8 = i by omega]
  · rw [if_neg (by omega), if_neg (by omega), if_pos (by omega), show 8 * 2 + i - 16 = i by omega]
  · rw [if_neg (by omega), if_neg (by omega), if_neg (by omega), show 8 * 3 + i - 24 = i by omega]

/-- A word is the word of its lanes. -/
theorem ofLanes_lanes (w : Word) : ofLanes (lane w 0) (lane w 1) (lane w 2) (lane w 3) = w := by
  apply BitVec.eq_of_getLsbD_eq
  intro i hi
  simp only [lane, getLsbD_ofLanes, BitVec.getLsbD_extractLsb']
  split
  · next h => simp [h]
  · split
    · simp [show i - 8 < 8 by omega, show 8 + (i - 8) = i by omega]
    · split
      · simp [show i - 16 < 8 by omega, show 16 + (i - 16) = i by omega]
      · simp [show i - 24 < 8 by omega, show 24 + (i - 24) = i by omega]

/-- MASK_KEY holds the key DECODE wrote to it. -/
@[simp] theorem keyOfWord_wordOfKey_some (k : MaskKey) : keyOfWord (wordOfKey (some k)) = k := by
  cases k
  simp [keyOfWord, wordOfKey, lane_ofLanes]

/-- `key[j]` is lane j of MASK_KEY (R30). -/
theorem keyOfWord_at (w : Word) (j : BitVec 2) : (keyOfWord w).at j = lane w j.toNat := by
  have h : j = 0 ∨ j = 1 ∨ j = 2 ∨ j = 3 := by revert j; decide
  rcases h with h | h | h | h <;> subst h <;> rfl

/-! ### Header buffers -/

theorem Buf.byte_of_ge (b : Buf) (i : Nat) (h : 16 ≤ i) : Buf.byte b i = 0 := by
  simp [Buf.byte, Vector.getElem?_eq_none h]

theorem Buf.byte_ofBytes (bs : List Byte) (i : Nat) (h : i < 16) : Buf.byte (Buf.ofBytes bs) i = bs[i]?.getD 0 := by
  simp [Buf.byte, Buf.ofBytes, h]

theorem Buf.byte_replicate_zero (i : Nat) : Buf.byte (Vector.replicate 16 0) i = 0 := by
  by_cases h : i < 16
  · simp [Buf.byte, h]
  · exact Buf.byte_of_ge _ _ (by omega)

/-- Two buffers with the same 16 bytes are equal. -/
theorem Buf.eq_of_byte (b c : Buf) (h : ∀ i, i < 16 → Buf.byte b i = Buf.byte c i) : b = c := by
  apply Vector.ext
  intro i hi
  simpa [Buf.byte, hi] using h i hi

theorem Buf.byte_set (b : Buf) (k : Nat) (v : Byte) (i : Nat) (hk : k < 16) :
    Buf.byte (b.setIfInBounds k v) i = if i = k then v else Buf.byte b i := by
  simp only [Buf.byte, Vector.getElem?_setIfInBounds]
  by_cases h : k = i
  · subst h; simp [hk]
  · simp [h, Ne.symm h]

/-- Storing window word `k` changes bytes 4k to 4k+3, each to its lane. -/
theorem Buf.byte_storeWord (b : Buf) (k : Nat) (w : Word) (i : Nat) (hk : k < 4) :
    Buf.byte (Buf.storeWord b k w) i = if 4 * k ≤ i ∧ i < 4 * k + 4 then lane w (i - 4 * k) else Buf.byte b i := by
  simp only [Buf.storeWord]
  rw [Buf.byte_set _ _ _ _ (by omega), Buf.byte_set _ _ _ _ (by omega), Buf.byte_set _ _ _ _ (by omega),
    Buf.byte_set _ _ _ _ (by omega)]
  by_cases h : 4 * k ≤ i ∧ i < 4 * k + 4
  · rw [if_pos h]
    obtain ⟨j, hj, rfl⟩ : ∃ j, j < 4 ∧ i = 4 * k + j := ⟨i - 4 * k, by omega, by omega⟩
    rw [show 4 * k + j - 4 * k = j by omega]
    have : j = 0 ∨ j = 1 ∨ j = 2 ∨ j = 3 := by omega
    rcases this with h | h | h | h <;> subst h <;> simp
  · rw [if_neg h, if_neg (by omega), if_neg (by omega), if_neg (by omega), if_neg (by omega)]

/-! ### Lengths -/

/-- The extended length takes 0, 2 or 8 bytes (R77). -/
theorem ext_cases (l : BitVec 7) : ext l = 0 ∨ ext l = 2 ∨ ext l = 8 := by
  simp only [ext]; split
  · simp
  · split <;> simp

/-- A header has one of the six lengths of R81. -/
theorem headerLenOf_cases (b1 : Byte) :
    headerLenOf b1 = 2 ∨ headerLenOf b1 = 4 ∨ headerLenOf b1 = 6 ∨ headerLenOf b1 = 8 ∨ headerLenOf b1 = 10 ∨
      headerLenOf b1 = 14 := by
  simp only [headerLenOf]
  rcases ext_cases (wireLen7 b1) with h | h | h <;> rw [h] <;> split <;> simp

/-- The width class is 0, 1 or 2 (R84). -/
theorem lenClass_cases (len : BitVec 64) : lenClass len = 0 ∨ lenClass len = 1 ∨ lenClass len = 2 := by
  simp only [lenClass]; split
  · simp
  · split <;> simp

@[simp] theorem toBe_length (v : BitVec 64) (n : Nat) : (toBe v n).length = n := by
  induction n with
  | zero => rfl
  | succ n ih => simp [toBe, ih]

/-- Byte k of `to_be(v, n)` is `v[8(n-1-k)+7 : 8(n-1-k)]` (R9). -/
theorem toBe_getElem? (v : BitVec 64) (n k : Nat) (h : k < n) :
    (toBe v n)[k]? = some (v.extractLsb' (8 * (n - 1 - k)) 8) := by
  induction n generalizing k with
  | zero => omega
  | succ n ih =>
    cases k with
    | zero => simp [toBe]
    | succ k =>
      simp only [toBe, List.getElem?_cons_succ]
      rw [ih k (by omega), show n + 1 - 1 - (k + 1) = n - 1 - k by omega]

theorem keyBytes_length (h : Header) (hw : h.wf) : (keyBytes h).length = if h.isMasked then 4 else 0 := by
  obtain ⟨fin, op, m, k, len⟩ := h
  cases m <;> cases k <;> simp_all [keyBytes, Header.wf]

/-- The register view of a header is well formed. -/
theorem hdrOf_wf (s : State) : (hdrOf s).wf := by
  cases h : s.masked <;> simp [hdrOf, Header.wf, h]

/-- The length of an encoded header is `2 + ext(c) + 4·is_masked` (R106). -/
theorem encodeHeader_length (h : Header) (hw : h.wf) :
    (encodeHeader h).length = 2 + extOfClass (lenClass h.contentLen) + if h.isMasked then 4 else 0 := by
  simp only [encodeHeader, List.length_append, toBe_length, keyBytes_length h hw]
  rfl

/-! ### What the commands can answer -/

/-- Everything `decodeHeader` can answer (R101). -/
theorem decodeHeader_cases (ib : Buf) (n : Nat) :
    (n < 2 ∧ decodeHeader ib n = .incomplete 2) ∨
      (2 ≤ n ∧ n < headerLenOf (Buf.byte ib 1) ∧
        decodeHeader ib n = .incomplete (headerLenOf (Buf.byte ib 1))) ∨
      (2 ≤ n ∧ headerLenOf (Buf.byte ib 1) ≤ n ∧
        decodeHeader ib n =
          .ok
            { fin := wireFin (Buf.byte ib 0)
              opcode := wireOpcode (Buf.byte ib 0)
              isMasked := wireMasked (Buf.byte ib 1)
              mask := if wireMasked (Buf.byte ib 1) then some (keyAt ib (2 + ext (wireLen7 (Buf.byte ib 1)))) else none
              contentLen := wireLen ib }
            (headerLenOf (Buf.byte ib 1)) (classOfExt (ext (wireLen7 (Buf.byte ib 1))))
            (nonmin (ext (wireLen7 (Buf.byte ib 1))) (wireLen ib))) := by
  by_cases h : n < 2
  · exact .inl ⟨h, by simp [decodeHeader, h]⟩
  · by_cases h' : n < headerLenOf (Buf.byte ib 1)
    · exact .inr (.inl ⟨by omega, h', by simp [decodeHeader, h, h']⟩)
    · exact .inr (.inr ⟨by omega, by omega, by simp [decodeHeader, h, h']⟩)

/-- Everything DECODE can do to the state (R102). -/
theorem decodeCmd_cases (s : State) :
    (∃ need, decodeHeader s.ibuf s.ibufAvail.toNat = .incomplete need ∧
        decodeCmd s = setStatus codeIncomplete (BitVec.ofNat 4 need) s) ∨
      (∃ h hl lc nm, decodeHeader s.ibuf s.ibufAvail.toNat = .ok h hl lc nm ∧
        decodeCmd s = setStatus codeOk 0 (loadHeader h hl lc nm s)) := by
  cases h : decodeHeader s.ibuf s.ibufAvail.toNat with
  | incomplete need => exact .inl ⟨need, rfl, by simp [decodeCmd, h]⟩
  | ok hd hl lc nm => exact .inr ⟨hd, hl, lc, nm, rfl, by simp [decodeCmd, h]⟩

/-! ### The codec's parts as numbers -/

/-- `ext` by the value of `len7` (R77). -/
theorem ext_eq (l : BitVec 7) : ext l = if l.toNat = 126 then 2 else if l.toNat = 127 then 8 else 0 := by
  revert l; decide

theorem two_le_headerLenOf (b1 : Byte) : 2 ≤ headerLenOf b1 := by simp only [headerLenOf]; omega

/-- A header length fits HEADER_LEN and NEED. -/
theorem toNat_ofNat_headerLenOf (b1 : Byte) : (BitVec.ofNat 4 (headerLenOf b1)).toNat = headerLenOf b1 := by
  rcases headerLenOf_cases b1 with h | h | h | h | h | h <;> rw [h] <;> rfl

theorem toNat_append_byte {n : Nat} (a : BitVec n) (b : Byte) : (a ++ b).toNat = 256 * a.toNat + b.toNat := by
  rw [BitVec.toNat_append, Nat.shiftLeft_eq, Nat.mul_comm, ← Nat.two_pow_add_eq_or_of_lt b.isLt]

theorem be16_toNat (a b : Byte) : (be16 a b).toNat = 256 * a.toNat + b.toNat := by
  unfold be16; rw [BitVec.toNat_setWidth, toNat_append_byte]; omega

theorem be64_toNat (a b c d e f g h : Byte) :
    (be64 a b c d e f g h).toNat =
      2 ^ 56 * a.toNat + 2 ^ 48 * b.toNat + 2 ^ 40 * c.toNat + 2 ^ 32 * d.toNat + 2 ^ 24 * e.toNat
        + 2 ^ 16 * f.toNat + 2 ^ 8 * g.toNat + h.toNat := by
  unfold be64; simp only [toNat_append_byte]; omega

/-- The length of a header in a buffer, as a number (R77). -/
theorem wireLen_toNat (ib : Buf) :
    (wireLen ib).toNat =
      if ext (wireLen7 (Buf.byte ib 1)) = 0 then (wireLen7 (Buf.byte ib 1)).toNat
      else if ext (wireLen7 (Buf.byte ib 1)) = 2 then 256 * (Buf.byte ib 2).toNat + (Buf.byte ib 3).toNat
      else 2 ^ 56 * (Buf.byte ib 2).toNat + 2 ^ 48 * (Buf.byte ib 3).toNat + 2 ^ 40 * (Buf.byte ib 4).toNat
        + 2 ^ 32 * (Buf.byte ib 5).toNat + 2 ^ 24 * (Buf.byte ib 6).toNat + 2 ^ 16 * (Buf.byte ib 7).toNat
        + 2 ^ 8 * (Buf.byte ib 8).toNat + (Buf.byte ib 9).toNat := by
  simp only [wireLen]
  split
  · rw [BitVec.toNat_setWidth]; have := (wireLen7 (Buf.byte ib 1)).isLt; omega
  · split
    · exact be16_toNat _ _
    · exact be64_toNat _ _ _ _ _ _ _ _

/-- The extended width an encoder selects, by the length (R84, R106). -/
theorem extOfClass_lenClass (len : BitVec 64) :
    extOfClass (lenClass len) = if len.toNat ≤ 125 then 0 else if len.toNat ≤ 65535 then 2 else 8 := by
  simp only [lenClass]; split
  · rfl
  · split <;> rfl

/-- The `len7` an encoder writes, as a number (R85). -/
theorem encodedLen7_toNat (len : BitVec 64) :
    (encodedLen7 len).toNat = if len.toNat ≤ 125 then len.toNat else if len.toNat ≤ 65535 then 126 else 127 := by
  unfold encodedLen7
  by_cases h : len.toNat ≤ 125
  · have : lenClass len = 0 := by simp [lenClass, h]
    rw [if_pos h, if_pos this]; simp [BitVec.extractLsb'_toNat]; omega
  · by_cases h' : len.toNat ≤ 65535
    · have : lenClass len = 1 := by simp [lenClass, h, h']
      rw [if_neg h, if_pos h', if_neg (by rw [this]; decide), if_pos this]; rfl
    · have : lenClass len = 2 := by simp [lenClass, h, h']
      rw [if_neg h, if_neg h', if_neg (by rw [this]; decide), if_neg (by rw [this]; decide)]; rfl

/-- The decoder's `ext` of the encoder's `len7` is the encoder's width. -/
theorem ext_encodedLen7 (len : BitVec 64) : ext (encodedLen7 len) = extOfClass (lenClass len) := by
  rw [ext_eq, encodedLen7_toNat, extOfClass_lenClass]
  by_cases h : len.toNat ≤ 125
  · rw [if_pos h, if_pos h, if_neg (by omega), if_neg (by omega)]
  · by_cases h' : len.toNat ≤ 65535
    · rw [if_neg h, if_neg h, if_pos h', if_pos h']; rfl
    · rw [if_neg h, if_neg h, if_neg h', if_neg h']; rfl

theorem classOfExt_extOfClass (len : BitVec 64) : classOfExt (extOfClass (lenClass len)) = lenClass len := by
  rcases lenClass_cases len with h | h | h <;> rw [h] <;> decide

/-- A byte of a 64-bit value, as a number. -/
theorem toNat_extract_byte (v : BitVec 64) (k : Nat) : (v.extractLsb' (8 * k) 8).toNat = v.toNat / 256 ^ k % 256 := by
  rw [BitVec.extractLsb'_toNat, Nat.shiftRight_eq_div_pow, Nat.pow_mul]

/-- Byte k of an encoded header (R106). -/
theorem encodeHeader_getElem? (h : Header) (k : Nat) :
    (encodeHeader h)[k]? =
      if k = 0 then some (BitVec.ofBool h.fin ++ 0#3 ++ h.opcode)
      else if k = 1 then some (BitVec.ofBool h.isMasked ++ encodedLen7 h.contentLen)
      else if k < 2 + extOfClass (lenClass h.contentLen) then
        some (h.contentLen.extractLsb' (8 * (extOfClass (lenClass h.contentLen) - 1 - (k - 2))) 8)
      else (keyBytes h)[k - 2 - extOfClass (lenClass h.contentLen)]? := by
  unfold encodeHeader
  generalize extOfClass (lenClass h.contentLen) = e
  match k with
  | 0 => rfl
  | 1 => rfl
  | k + 2 =>
    rw [if_neg (by omega), if_neg (by omega), List.append_assoc]
    show (toBe h.contentLen e ++ keyBytes h)[k]? = _
    by_cases hk : k < e
    · rw [if_pos (by omega), List.getElem?_append_left (by simpa using hk), toBe_getElem? _ _ _ hk]; simp
    · rw [if_neg (by omega), List.getElem?_append_right (by simp; omega)]; simp

/-- An encoded header has one of the six lengths. -/
theorem encodeHeader_length_cases (h : Header) (hw : h.wf) :
    (encodeHeader h).length = 2 ∨ (encodeHeader h).length = 4 ∨ (encodeHeader h).length = 6 ∨
      (encodeHeader h).length = 8 ∨ (encodeHeader h).length = 10 ∨ (encodeHeader h).length = 14 := by
  rw [encodeHeader_length h hw]
  rcases lenClass_cases h.contentLen with hc | hc | hc <;> rw [hc] <;> cases h.isMasked <;> simp [extOfClass]

/-- The key bytes of the header the registers hold. -/
theorem keyBytes_hdrOf (s : State) :
    keyBytes (hdrOf s) =
      if s.masked then [lane s.maskKey 0, lane s.maskKey 1, lane s.maskKey 2, lane s.maskKey 3] else [] := by
  cases hm : s.masked <;> simp [hdrOf, keyBytes, hm, keyOfWord]

/-- Stores to different window words can be made in either order. -/
theorem Buf.storeWord_comm (b : Buf) (j k : Nat) (hj : j < 4) (hk : k < 4) (hjk : j ≠ k) (v w : Word) :
    Buf.storeWord (Buf.storeWord b j v) k w = Buf.storeWord (Buf.storeWord b k w) j v := by
  apply Buf.eq_of_byte
  intro i _
  rw [Buf.byte_storeWord _ _ _ _ hk, Buf.byte_storeWord _ _ _ _ hj, Buf.byte_storeWord _ _ _ _ hj,
    Buf.byte_storeWord _ _ _ _ hk]
  by_cases h1 : 4 * k ≤ i ∧ i < 4 * k + 4
  · rw [if_pos h1, if_neg (by omega), if_pos h1]
  · rw [if_neg h1, if_neg h1]

end Sys2Proof.Machine
end

