-- ==== Sys2Proof/Laws/Mask.lean ====
section
/-! SUPPORT. Sys2Proof/Laws/Mask.lean: what MASK can do to the state. -/
namespace Sys2Proof.Machine

@[simp] theorem xorMask_length (k : MaskKey) (p : BitVec 2) (bs : List Byte) : (xorMask k p bs).length = bs.length := by
  induction bs generalizing p with
  | nil => rfl
  | cons b bs ih => simp [xorMask, ih]

/-- Everything MASK can do (R122): RANGE, or the range XORed, the phase advanced and OK. -/
theorem maskCmd_cases (s : State) :
    (s.cfg.pbufSize < s.pStart.toNat + s.pCount.toNat ∧ maskCmd s = setStatus codeRange 0 s) ∨
      (s.pStart.toNat + s.pCount.toNat ≤ s.cfg.pbufSize ∧
        maskCmd s = setStatus codeOk 0
          { writePbuf s.pStart.toNat
              (xorMask (keyOfWord s.maskKey) s.maskPhase (pbufBytes s s.pStart.toNat s.pCount.toNat)) s with
            maskPhase := BitVec.ofNat 2 (s.maskPhase.toNat + s.pCount.toNat) }) := by
  by_cases h : s.cfg.pbufSize < s.pStart.toNat + s.pCount.toNat
  · exact .inl ⟨h, by simp [maskCmd, h]⟩
  · exact .inr ⟨by omega, by simp [maskCmd, h]⟩

/-- Byte j of a masked list, with the phase as a 2-bit sum. -/
theorem xorMask_getD (k : MaskKey) (p : BitVec 2) (bs : List Byte) (j : Nat) (hj : j < bs.length) :
    (xorMask k p bs)[j]?.getD 0 = bs[j]?.getD 0 ^^^ k.at (p + BitVec.ofNat 2 j) := by
  induction bs generalizing p j with
  | nil => simp at hj
  | cons b bs ih =>
    cases j with
    | zero => simp [xorMask]
    | succ j =>
      simp only [xorMask, List.getElem?_cons_succ]
      rw [ih _ _ (by simpa using hj)]
      congr 2
      apply BitVec.eq_of_toNat_eq; simp; omega

end Sys2Proof.Machine
end

