-- ==== Sys2Proof/Laws/PerInstr.lean ====
section
/-! SUPPORT. Sys2Proof/Laws/PerInstr.lean: the family MatchesRow: the word of an instruction matches the row
of spec/opcode_table.json the instruction stands for. -/
namespace Sys2Proof.Laws.MatchesRow

/-- The row an instruction stands for. -/
def rowOf : Instr → Row
  | .nop => rowNop
  | .decode => rowDecode
  | .encode => rowEncode
  | .mask => rowMask
  | .sreset => rowSreset
  | .reserved4to7 _ => rowReserved4to7
  | .reserved8toB _ => rowReserved8toB
  | .reservedCtoD _ => rowReservedCtoD
  | .reservedE => rowReservedE
  | .reservedRsvd _ _ => rowReservedRsvd

/-- Its word matches its row. -/
def Statement (i : Instr) : Prop := (rowOf i).Matches (encode i)

theorem nop : Statement .nop := by unfold Statement; decide
theorem decode : Statement .decode := by unfold Statement; decide
theorem encode : Statement .encode := by unfold Statement; decide
theorem mask : Statement .mask := by unfold Statement; decide
theorem sreset : Statement .sreset := by unfold Statement; decide
theorem reserved4to7 (lo : BitVec 2) : Statement (.reserved4to7 lo) := by unfold Statement; revert lo; decide
theorem reserved8toB (lo : BitVec 2) : Statement (.reserved8toB lo) := by unfold Statement; revert lo; decide
theorem reservedCtoD (lo : BitVec 1) : Statement (.reservedCtoD lo) := by unfold Statement; revert lo; decide
theorem reservedE : Statement .reservedE := by unfold Statement; decide
theorem reservedRsvd (op : BitVec 4) (rsvd : BitVec 28) : Statement (.reservedRsvd op rsvd) := by
  simp [Statement, Row.Matches, rowOf, rowReservedRsvd]

end Sys2Proof.Laws.MatchesRow
end

