-- ==== Sys2Proof/Laws/Step.lean ====
section
/-! SUPPORT. Sys2Proof/Laws/Step.lean: what a host access and a step can do, and what a bus write leaves alone. -/
namespace Sys2Proof.Machine

/-- The windows the address map can select, with the index each allows (spec/20_memory.md R51). -/
theorem target_cases (c : Config) (a : HAddr) :
    (∃ r, target c a = .reg r) ∨ (∃ k, k < 4 ∧ target c a = .ibuf k) ∨ (∃ k, k < 4 ∧ target c a = .obuf k) ∨
      (∃ k, 4 * k < c.pbufSize ∧ target c a = .pbuf k) ∨ target c a = .unmapped := by
  have hb : byteAddr a % 4 = 0 := by simp [byteAddr]
  cases hr : regAt (byteAddr a) with
  | some r => exact .inl ⟨r, by simp [target, hr]⟩
  | none =>
    by_cases h1 : 0x040 ≤ byteAddr a ∧ byteAddr a < 0x050
    · exact .inr (.inl ⟨(byteAddr a - 0x040) / 4, by omega, by simp [target, hr, h1]⟩)
    · by_cases h2 : 0x050 ≤ byteAddr a ∧ byteAddr a < 0x060
      · exact .inr (.inr (.inl ⟨(byteAddr a - 0x050) / 4, by omega, by simp [target, hr, h1, h2]⟩))
      · by_cases h3 : 0x1000 ≤ byteAddr a ∧ byteAddr a < 0x1000 + c.pbufSize
        · exact .inr (.inr (.inr (.inl ⟨(byteAddr a - 0x1000) / 4, by omega, by simp [target, hr, h1, h2, h3]⟩)))
        · exact .inr (.inr (.inr (.inr (by simp [target, hr, h1, h2, h3]))))

/-- CMD is the register at its word address, and at no other. -/
theorem target_eq_cmd (c : Config) (a : HAddr) : target c a = .reg .cmd ↔ a = cmdAddr := by
  constructor
  · intro h
    simp only [target] at h
    split at h
    · next r hr =>
      injection h with h
      subst h
      simp only [regAt] at hr
      split at hr <;> simp at hr
      next hb =>
      apply BitVec.eq_of_toNat_eq
      simp only [byteAddr] at hb
      simp [cmdAddr]; omega
    · split at h
      · simp at h
      · split at h
        · simp at h
        · split at h <;> simp at h
  · rintro rfl; rfl

/-- Everything a host operation can do. -/
theorem performOp_cases (op : HostOp) (s t : State) (h : performOp op s = .next t) :
    (∃ a, op = .read a ∧ t = { s with observed := busRead s a :: s.observed }) ∨
      (∃ w, op = .write cmdAddr w ∧ exec (decode w) s = .next t) ∨
      (∃ a w, op = .write a w ∧ a ≠ cmdAddr ∧ t = busWrite s a w) ∨
      (op = .powerOnReset ∧ t = powerOnReset s) := by
  cases op with
  | read a => simp only [performOp, Host.Outcome.next.injEq] at h; exact .inl ⟨a, rfl, h.symm⟩
  | write a w =>
    by_cases ha : a = cmdAddr
    · subst ha
      refine .inr (.inl ⟨w, rfl, ?_⟩)
      simpa [performOp, performWrite, target_eq_cmd] using h
    · refine .inr (.inr (.inl ⟨a, w, rfl, ha, ?_⟩))
      simp only [performOp, performWrite, target_eq_cmd, if_neg ha, Host.Outcome.next.injEq] at h
      exact h.symm
  | powerOnReset => simp only [performOp, Host.Outcome.next.injEq] at h; exact .inr (.inr (.inr ⟨rfl, h.symm⟩))

/-- Everything a step can do: nothing while the host is idle, or its next operation. -/
theorem step_cases (s t : State) (h : step s = .next t) :
    (s.pending = [] ∧ t = s) ∨
      (∃ op rest, s.pending = op :: rest ∧ performOp op { s with pending := rest } = .next t) := by
  cases hp : s.pending with
  | nil => simp only [step, hp, Host.Outcome.next.injEq] at h; exact .inl ⟨rfl, h.symm⟩
  | cons op rest => simp only [step, hp] at h; exact .inr ⟨op, rest, rfl, h⟩

/-- What a command does to the state, by command (spec/30_encoding.md R72). -/
theorem exec_cases (i : Instr) (s t : State) (h : exec i s = .next t) :
    (i = .nop ∧ t = s) ∨ (i = .decode ∧ t = decodeCmd s) ∨ (i = .encode ∧ t = encodeCmd s) ∨
      (i = .mask ∧ t = maskCmd s) ∨ (i = .sreset ∧ t = clearAllButPbuf s) ∨
      (i.isReserved = true ∧ t = setStatus codeBadCmd 0 s) := by
  cases i <;>
    simp only [exec, execNop, execDecode, execEncode, execMask, execSreset, execReserved4to7, execReserved8toB,
      execReservedCtoD, execReservedE, execReservedRsvd, badCmd, Host.Outcome.next.injEq] at h <;>
    subst h <;> simp [Instr.isReserved]

/-- A bus write leaves the model's own fields, STATUS, HDR_INFO and OBUF alone (spec/20_memory.md R53). -/
theorem busWrite_frame (s : State) (a : HAddr) (w : Word) :
    (busWrite s a w).cfg = s.cfg ∧ (busWrite s a w).powerOns = s.powerOns ∧ (busWrite s a w).pending = s.pending ∧
      (busWrite s a w).observed = s.observed ∧ (busWrite s a w).status = s.status ∧
      (busWrite s a w).headerLen = s.headerLen ∧ (busWrite s a w).lclass = s.lclass ∧
      (busWrite s a w).obuf = s.obuf ∧ (busWrite s a w).obufLen = s.obufLen := by
  rcases target_cases s.cfg a with ⟨r, h⟩ | ⟨k, _, h⟩ | ⟨k, _, h⟩ | ⟨k, _, h⟩ | h
  · cases r <;> simp [busWrite, h, writeTarget, writeReg]
  all_goals simp [busWrite, h, writeTarget]

/-! ### What an address selects -/

theorem target_of_regAt (c : Config) (a : HAddr) (b : Nat) (r : Reg) (h : byteAddr a = b) (hr : regAt b = some r) :
    target c a = .reg r := by
  simp only [target, h, hr]

theorem regAt_eq_none (b : Nat) (h : 0x38 ≤ b) : regAt b = none := by
  unfold regAt; split <;> first | omega | rfl

theorem target_ibuf (c : Config) (a : HAddr) (k : Nat) (hk : k < 4) (h : byteAddr a = 0x40 + 4 * k) :
    target c a = .ibuf k := by
  simp only [target, regAt_eq_none _ (show 0x38 ≤ byteAddr a by omega)]
  rw [if_pos (by omega)]; congr 1; omega

theorem target_obuf (c : Config) (a : HAddr) (k : Nat) (hk : k < 4) (h : byteAddr a = 0x50 + 4 * k) :
    target c a = .obuf k := by
  simp only [target, regAt_eq_none _ (show 0x38 ≤ byteAddr a by omega)]
  rw [if_neg (by omega), if_pos (by omega)]; congr 1; omega

theorem target_pbuf (c : Config) (a : HAddr) (k : Nat) (hk : 4 * k < c.pbufSize) (h : byteAddr a = 0x1000 + 4 * k) :
    target c a = .pbuf k := by
  simp only [target, regAt_eq_none _ (show 0x38 ≤ byteAddr a by omega)]
  rw [if_neg (by omega), if_neg (by omega), if_pos (by omega)]; congr 1; omega

theorem target_unmapped (c : Config) (a : HAddr)
    (h : (0x038 ≤ byteAddr a ∧ byteAddr a < 0x040) ∨ (0x060 ≤ byteAddr a ∧ byteAddr a < 0x1000) ∨
      0x1000 + c.pbufSize ≤ byteAddr a) : target c a = .unmapped := by
  simp only [target, regAt_eq_none _ (show 0x38 ≤ byteAddr a by omega)]
  rw [if_neg (by omega), if_neg (by omega), if_neg (by omega)]

/-- A host write that does not select CMD stores, and nothing more. -/
theorem performOp_write (s : State) (a : HAddr) (w : Word) (g : Target) (h : target s.cfg a = g) (hg : g ≠ .reg .cmd) :
    performOp (.write a w) s = .next (writeTarget s w g) := by
  simp only [performOp, performWrite, h, hg, if_false, busWrite]

/-- A register has one address. -/
theorem regAt_injective {x y : Nat} {r : Reg} (hx : regAt x = some r) (hy : regAt y = some r) : x = y := by
  have key : ∀ x r, regAt x = some r → x = 4 * r.ctorIdx := by
    intro x r h
    unfold regAt at h
    split at h <;> first | (injection h with h; subst h; rfl) | cases h
  rw [key x r hx, key y r hy]

/-- Two addresses select different things, unless one selects nothing. -/
theorem target_ne_of_ne (c : Config) (a b : HAddr) (hab : a ≠ b) :
    target c a = .unmapped ∨ target c b = .unmapped ∨ target c a ≠ target c b := by
  by_cases h : target c a = target c b
  · have ha : byteAddr a % 4 = 0 := by simp [byteAddr]
    have hb : byteAddr b % 4 = 0 := by simp [byteAddr]
    have hne : byteAddr a ≠ byteAddr b := by
      intro h; apply hab; apply BitVec.eq_of_toNat_eq; simp only [byteAddr] at h; omega
    simp only [target] at h ⊢
    cases hra : regAt (byteAddr a) with
    | some r =>
      simp only [hra] at h
      exfalso
      cases hrb : regAt (byteAddr b) with
      | none => simp only [hrb] at h; split at h <;> [cases h; (split at h <;> [cases h; (split at h <;> cases h)])]
      | some r' =>
        simp only [hrb] at h; injection h with h; subst h
        exact hne (regAt_injective hra hrb)
    | none =>
      simp only [hra] at h
      cases hrb : regAt (byteAddr b) with
      | some r' => simp only [hrb] at h; split at h <;> [cases h; (split at h <;> [cases h; (split at h <;> cases h)])]
      | none =>
        simp only [hrb] at h
        split at h
        · split at h
          · injection h with h; omega
          · split at h
            · cases h
            · split at h <;> cases h
        · split at h
          · split at h
            · cases h
            · split at h
              · injection h with h; omega
              · split at h <;> cases h
          · split at h
            · split at h
              · cases h
              · split at h
                · cases h
                · split at h
                  · injection h with h; omega
                  · cases h
            · left; simp only []; rw [if_neg ‹_›, if_neg ‹_›, if_neg ‹_›]
  · exact .inr (.inr h)

end Sys2Proof.Machine
end

