-- ==== Sys2Proof/Tests/Slice0.lean ====
section
/-! SUPPORT. Sys2Proof/Tests/Slice0.lean: small tests, their expected values from spec/95_test_vectors.md and the
worked examples of spec/, and for each statement with hypotheses a concrete case that meets them. -/
namespace Sys2Proof.Tests
open Sys2Proof.Machine

/-! ### Well-formedness -/

/-- The table's last row stands for no word with RSVD = 0. -/
theorem test_wf_refuses_rsvd_zero : (Instr.reservedRsvd 3 0).wf = false := by decide
theorem test_wf_accepts_every_row :
    Instr.nop.wf ∧ Instr.decode.wf ∧ Instr.encode.wf ∧ Instr.mask.wf ∧ Instr.sreset.wf ∧
      (Instr.reserved4to7 3).wf ∧ (Instr.reserved8toB 0).wf ∧ (Instr.reservedCtoD 1).wf ∧ Instr.reservedE.wf ∧
      (Instr.reservedRsvd 0 1).wf := by decide

/-! ### Command words, written out bit by bit: RSVD w[31:4], then OP w[3:0] -/

theorem test_word_nop : decode 0b0000000000000000000000000000_0000 = .nop := by decide
theorem test_word_decode : decode 0b0000000000000000000000000000_0001 = .decode := by decide
theorem test_word_encode : decode 0b0000000000000000000000000000_0010 = .encode := by decide
theorem test_word_mask : decode 0b0000000000000000000000000000_0011 = .mask := by decide
theorem test_word_sreset : decode 0b0000000000000000000000000000_1111 = .sreset := by decide
theorem test_word_reserved4to7 :
    decode 0b0000000000000000000000000000_0100 = .reserved4to7 0b00 ∧
      decode 0b0000000000000000000000000000_0111 = .reserved4to7 0b11 := by decide
theorem test_word_reserved8toB :
    decode 0b0000000000000000000000000000_1000 = .reserved8toB 0b00 ∧
      decode 0b0000000000000000000000000000_1011 = .reserved8toB 0b11 := by decide
theorem test_word_reservedCtoD :
    decode 0b0000000000000000000000000000_1100 = .reservedCtoD 0b0 ∧
      decode 0b0000000000000000000000000000_1101 = .reservedCtoD 0b1 := by decide
theorem test_word_reservedE : decode 0b0000000000000000000000000000_1110 = .reservedE := by decide
theorem test_word_reservedRsvd :
    decode 0b0000000000000000000000000001_0001 = .reservedRsvd 0b0001 0b1 ∧
      decode 0b1000000000000000000000000000_0011 = .reservedRsvd 0b0011 0b1000000000000000000000000000 := by decide
theorem test_encode_words :
    encode .sreset = 0xF ∧ encode (.reserved4to7 3) = 0x7 ∧ encode (.reserved8toB 1) = 0x9 ∧
      encode (.reservedCtoD 1) = 0xD ∧ encode (.reservedRsvd 3 0x8000000) = 0x80000003 := by decide
theorem test_decodeTableWord :
    decodeTableWord 32 3 = some .mask ∧ decodeTableWord 32 0x80000003 = some (.reservedRsvd 3 0x8000000) := by decide

/-! ### Small states -/

/-- IBUF begins with `bytes` and IBUF_AVAIL is `n`, the rest as at reset. -/
def input (bytes : List Byte) (n : Nat) : State :=
  { State.reset with ibuf := Buf.ofBytes bytes, ibufAvail := BitVec.ofNat 5 n }

/-- The header registers of an ENCODE vector, the rest as at reset. -/
def header (fin : Bool) (op : BitVec 4) (masked : Bool) (len : BitVec 64) (key : Word) : State :=
  { State.reset with fin := fin, opcode := op, masked := masked, contentLen := len, maskKey := key }

/-- The registers and PBUF bytes of a MASK vector, the rest as at reset. -/
def payload (key : Word) (phase : BitVec 2) (start count : Word) (bytes : List Byte) : State :=
  writePbuf start.toNat bytes
    { State.reset with maskKey := key, maskPhase := phase, pStart := start, pCount := count }

/-- `s` with one host operation to come. -/
def placing (op : HostOp) (s : State) : State := { s with pending := [op] }

/-- The next state of an outcome. -/
def nextOr (s : State) : Host.Outcome State Fault Refusal → State
  | .next t => t
  | _ => s

abbrev after (i : Instr) (s : State) : State := nextOr s (exec i s)

abbrev afterOp (op : HostOp) (s : State) : State := nextOr s (performOp op s)

/-- A masked text header, vector DC1. -/
def dc1 : State := input [0x81, 0x85, 0x37, 0xFA, 0x21, 0x3D] 6

/-- A masked 16-bit header, vector DC8. -/
def dc8 : State := input [0x82, 0xFE, 0x01, 0x00, 0xAA, 0xBB, 0xCC, 0xDD] 8

/-- The longest header, vector DC12. -/
def dc12 : State := input [0x82, 0xFF, 0, 0, 0, 0, 0, 1, 0, 0, 1, 2, 3, 4] 14

/-! ### Commands, from the vectors -/

/-- DC1. -/
theorem test_decode_dc1 :
    (after .decode dc1).maskKey = 0x3D21FA37 ∧ (after .decode dc1).contentLen = 5 ∧
      (after .decode dc1).headerLen = 6 := by decide
/-- DC5 and DC10: INCOMPLETE with NEED 14; a non-minimal 64-bit form. -/
theorem test_decode_dc5_dc10 :
    Status.word (after .decode (input [0x82, 0xFF] 2)).status = 0x00000E01 ∧
      Status.word (after .decode (input [0x82, 0x7F, 0, 0, 0, 0, 0, 0, 0xFF, 0xFF] 10)).status = 0x00010000 := by decide
/-- E14: the longest form. -/
theorem test_encode_e14 :
    (after .encode (header true 2 true 65536 0x44332211)).obuf =
      Buf.ofBytes [0x82, 0xFF, 0, 0, 0, 0, 0, 1, 0, 0, 0x11, 0x22, 0x33, 0x44] := by decide
/-- E6 and E12: 65535 takes the 16-bit form; OPC_UNKNOWN. -/
theorem test_encode_e6_e12 :
    (after .encode (header true 2 false 65535 0)).obuf = Buf.ofBytes [0x82, 0x7E, 0xFF, 0xFF] ∧
      Status.word (after .encode (header false 0xF false 0 0)).status = 0x00040000 := by decide
/-- M3: the first byte uses key[3]. -/
theorem test_mask_m3 :
    let t := after .mask (payload 0x3D21FA37 3 0 5 [0, 0, 0, 0, 0])
    pbufBytes t 0 5 = [0x3D, 0x37, 0xFA, 0x21, 0x3D] ∧ t.maskPhase = 0 := by decide
/-- M6 and M7: the last byte of PBUF; one byte past it. -/
theorem test_mask_m6_m7 :
    pbufByte (after .mask (payload 0x3D21FA37 0 4095 1 [0xAA])) 4095 = 0x9D ∧
      (after .mask (payload 0x3D21FA37 0 4095 2 [0xAA])).status.code = 3 := by decide
/-- K1. -/
theorem test_nop_k1 :
    Status.word (after .nop { State.reset with status := { Status.clear with code := 1, need := 2 } }).status = 0x201 := by
  decide
/-- K5: the registers clear, PBUF stays. -/
theorem test_sreset_k5 :
    let t := after .sreset (after .mask (payload 0x3D21FA37 0 4095 1 [0xAA]))
    t.maskKey = 0 ∧ t.pStart = 0 ∧ pbufByte t 4095 = 0x9D := by decide
/-- K2: BAD_CMD, the flags kept. -/
theorem test_reserved4to7_k2 :
    Status.word
        (after (.reserved4to7 3) { State.reset with status := { Status.clear with flags := { Flags.clear with opcControl := true } } }).status =
      0x00080002 := by decide
theorem test_reserved8toB_status : Status.word (after (.reserved8toB 0) State.reset).status = 0x00000002 := by decide
theorem test_reservedCtoD_status : Status.word (after (.reservedCtoD 1) State.reset).status = 0x00000002 := by decide
theorem test_reservedE_status : Status.word (after .reservedE State.reset).status = 0x00000002 := by decide
/-- K3 and K4. -/
theorem test_reservedRsvd_k3_k4 :
    Status.word (after (decode 0x00000011) State.reset).status = 0x00000002 ∧
      Status.word (after (decode 0x80000003) State.reset).status = 0x00000002 := by decide

/-- A step after `withFetchWord` runs the command. -/
theorem test_step_runs_placed_word :
    (nextOr State.reset (step (State.reset.withFetchWord 32 0x7))).status.code = 2 := by decide

/-! ### The host bus, from the vectors -/

/-- B1, B2, B3. -/
theorem test_bus_ibufAvail :
    (afterOp (.write 10 17) State.reset).ibufAvail = 16 ∧ (afterOp (.write 10 0x25) State.reset).ibufAvail = 5 ∧
      (afterOp (.write 10 0x20) State.reset).ibufAvail = 0 := by decide
/-- B4, B5, B10: read-only, unmapped and write-only addresses. -/
theorem test_bus_no_store :
    busRead (afterOp (.write 3 0xFFFFFFFF) State.reset) 3 = 0 ∧ busRead State.reset 14 = 0 ∧
      busRead State.reset 2 = 0 := by decide
/-- B6. -/
theorem test_bus_constants : busRead State.reset 0 = 0x57534843 ∧ busRead State.reset 1 = 0x10101000 := by decide
/-- B7, B8. -/
theorem test_bus_fields :
    busRead (afterOp (.write 4 0xFFFFFFFF) State.reset) 4 = 0x000001F1 ∧
      busRead (afterOp (.write 9 0xFFFFFFFF) State.reset) 9 = 3 := by decide
/-- B9. -/
theorem test_bus_ibuf_lanes :
    (afterOp (.write 16 0x3D21FA37) State.reset).ibuf = Buf.ofBytes [0x37, 0xFA, 0x21, 0x3D] := by decide

/-! ### Cases that meet the hypotheses of the statements -/

theorem test_case_decodeInvertsEncode : (Instr.reservedRsvd 0xF 0xFFFFFFF).wf = true := by decide
theorem test_case_stepRuns :
    (placing (.write cmdAddr 1) dc1).pending = [.write cmdAddr 1] ∧
      (placing (.read cmdAddr) dc1).pending = [.read cmdAddr] := by decide
theorem test_case_idle : dc1.pending = [] := by decide
theorem test_case_stepTakes :
    ∀ op, op = .read 3 ∨ op = .write cmdAddr 1 ∨ op = .write 4 5 ∨ op = .powerOnReset →
      ∃ t, (placing op dc1).pending = [op] ∧ step (placing op dc1) = .next t := by
  intro op h
  rcases h with h | h | h | h <;> subst h <;> exact ⟨_, rfl, rfl⟩

/-- A state that a DECODE and an ENCODE have written, with a MASK to come, has the invariants. -/
theorem test_case_invariant :
    Inv (placing (.write cmdAddr 3) (after .encode (after .decode dc8))) ∧
      ∃ t, step (placing (.write cmdAddr 3) (after .encode (after .decode dc8))) = .next t := by
  refine ⟨?_, _, rfl⟩
  constructor
  · decide
  · decide
  · decide
  · exact fun _ => ⟨true, by decide⟩
  · decide
  · intro k hk
    by_cases h : k < 16
    · revert k; decide
    · simp [Buf.byte, Vector.getElem?_eq_none (show 16 ≤ k by omega)]
  · decide
  · decide
  · decide
  · decide
  · decide
  · decide
theorem test_case_legal :
    Config.legal { pbufSize := 4 } ∧ Config.legal { pbufSize := 61440 } ∧ ¬ Config.legal { pbufSize := 61444 } ∧
      Config.legal State.reset.cfg := by decide
theorem test_case_reachable : ∃ t : State, t.status.code = 1 ∧ Reachable t :=
  ⟨_, rfl, .step (State.powerOn Config.reference 0 [.write cmdAddr 1]) _ (.powerOn _ _ _ (by decide)) rfl⟩
theorem test_case_headerLenFits :
    (after .decode dc12).status.code = 0 ∧ exec .decode dc12 = .next (after .decode dc12) ∧
      exec .encode dc12 = .next (after .encode dc12) := ⟨by decide, rfl, rfl⟩
theorem test_case_powerOnReset : (placing .powerOnReset dc1).pending = .powerOnReset :: [] := by decide
theorem test_case_reservedWord :
    ∀ w, w = 0x00000004 ∨ w = 0x0000000E ∨ w = 0x00000010 ∨ w = 0xFFFFFFFF →
      w ≠ (0x00000000 : Word) ∧ w ≠ 0x00000001 ∧ w ≠ 0x00000002 ∧ w ≠ 0x00000003 ∧ w ≠ 0x0000000F := by
  intro w h
  rcases h with h | h | h | h <;> subst h <;> decide
/-- Each of the five forms the reserved statement names. -/
theorem test_case_reservedForms :
    (decode 0x5 = .reserved4to7 1) ∧ (decode 0xA = .reserved8toB 2) ∧ (decode 0xC = .reservedCtoD 0) ∧
      (decode 0xE = .reservedE) ∧ (decode 0x1F = .reservedRsvd 0xF 1) := by decide

/-- DECODE's clauses at their boundaries: 0 and 1 bytes; one byte short of 14; exactly 14; exactly 2. -/
theorem test_case_decodeClauses :
    (input [0x81] 1).ibufAvail.toNat < 2 ∧ State.reset.ibufAvail.toNat < 2 ∧
      (let s := input [0x82, 0xFF, 0, 0, 0, 0, 0, 1, 0, 0, 1, 2, 3] 13
       2 ≤ s.ibufAvail.toNat ∧ s.ibufAvail.toNat < 2 + 8 + 4 ∧ Buf.byte s.ibuf 1 = 0xFF) ∧
      (2 ≤ dc12.ibufAvail.toNat ∧ 2 + 8 + 4 ≤ dc12.ibufAvail.toNat ∧ Buf.byte dc12.ibuf 1 = 0xFF) ∧
      (let s := input [0x01, 0x02] 2
       2 ≤ s.ibufAvail.toNat ∧ 2 + 0 + 0 ≤ s.ibufAvail.toNat ∧ Buf.byte s.ibuf 1 = 0x02) ∧
      (let s := input [0x82, 0x7E, 0xFF, 0xFF] 4
       2 ≤ s.ibufAvail.toNat ∧ 2 + 2 + 0 ≤ s.ibufAvail.toNat ∧ Buf.byte s.ibuf 1 = 0x7E) := by decide
theorem test_case_decodeFrame :
    exec .decode (input [0x82, 0xFE] 2) = .next (after .decode (input [0x82, 0xFE] 2)) ∧
      (after .decode (input [0x82, 0xFE] 2)).status.code ≠ 0 := ⟨rfl, by decide⟩
theorem test_case_decodedKey :
    exec .decode dc12 = .next (after .decode dc12) ∧ (after .decode dc12).status.code = 0 ∧
      (after .decode dc12).masked = true ∧ (after .decode (input [0x01, 0x02] 2)).status.code = 0 ∧
      (after .decode (input [0x01, 0x02] 2)).masked = false := ⟨rfl, by decide⟩
/-- Two buffers that differ past the header and past the count. -/
theorem test_case_decodeReadsOnly :
    (∀ k, k < 16 → k < headerLenOf (Buf.byte dc8.ibuf 1) →
        Buf.byte (Buf.ofBytes [0x82, 0xFE, 0x01, 0x00, 0xAA, 0xBB, 0xCC, 0xDD, 0xEE]) k = Buf.byte dc8.ibuf k) ∧
      Buf.byte (Buf.ofBytes [0x82, 0xFE, 0x01, 0x00, 0xAA, 0xBB, 0xCC, 0xDD, 0xEE]) 8 ≠ Buf.byte dc8.ibuf 8 := by decide
/-- DC13: RSV = 111. -/
theorem test_case_rsv :
    (∀ k, k < 16 → k ≠ 0 → Buf.byte (Buf.ofBytes [0xF1, 0x00]) k = Buf.byte (Buf.ofBytes [0x81, 0x00]) k) ∧
      (Buf.byte (Buf.ofBytes [0xF1, 0x00]) 0).getLsbD 7 = (Buf.byte (Buf.ofBytes [0x81, 0x00]) 0).getLsbD 7 ∧
      (Buf.byte (Buf.ofBytes [0xF1, 0x00]) 0).extractLsb' 0 4 = (Buf.byte (Buf.ofBytes [0x81, 0x00]) 0).extractLsb' 0 4 ∧
      Buf.byte (Buf.ofBytes [0xF1, 0x00]) 0 ≠ Buf.byte (Buf.ofBytes [0x81, 0x00]) 0 := by decide
/-- Resumability: a complete header with more bytes; 82 FE waiting for 8; 1 byte, then 2. -/
theorem test_case_resumable :
    (∃ h hl lc nm, decodeHeader dc8.ibuf 8 = .ok h hl lc nm) ∧ decodeHeader dc8.ibuf 2 = .incomplete 8 ∧
      decodeHeader dc8.ibuf 7 = .incomplete 8 ∧ decodeHeader dc8.ibuf 1 = .incomplete 2 ∧
      decodeHeader dc8.ibuf 0 = .incomplete 2 := ⟨⟨_, _, _, _, rfl⟩, by decide⟩
/-- Resumability at the command: 7 bytes of DC8, then all 8. -/
theorem test_case_resumableCommand :
    let s := { dc8 with ibufAvail := 7 }
    exec .decode s = .next (after .decode s) ∧ (after .decode s).status.code = 1 ∧
      exec .decode { after .decode s with ibuf := dc8.ibuf, ibufAvail := 8 } =
        .next (after .decode { after .decode s with ibuf := dc8.ibuf, ibufAvail := 8 }) ∧
      (after .decode { after .decode s with ibuf := dc8.ibuf, ibufAvail := 8 }).status.code = 0 :=
  ⟨rfl, by decide, rfl, by decide⟩
/-- DC9 is non-minimal, DC20 minimal. -/
theorem test_case_nonmin :
    (∃ h hl lc, decodeHeader (input [0x82, 0x7E, 0x00, 0x05] 4).ibuf 4 = .ok h hl lc true) ∧
      (∃ h hl lc, decodeHeader (input [0x82, 0x7E, 0xFF, 0xFF] 4).ibuf 4 = .ok h hl lc false) :=
  ⟨⟨_, _, _, rfl⟩, ⟨_, _, _, rfl⟩⟩
theorem test_case_idempotent :
    exec .nop dc8 = .next (after .nop dc8) ∧ exec .decode dc8 = .next (after .decode dc8) ∧
      exec .encode dc8 = .next (after .encode dc8) ∧ exec .sreset dc8 = .next (after .sreset dc8) := ⟨rfl, rfl, rfl, rfl⟩
theorem test_case_lengthWidths :
    (125#64).toNat ≤ 125 ∧ 126 ≤ (126#64).toNat ∧ (65535#64).toNat ≤ 65535 ∧ 65536 ≤ (65536#64).toNat := by decide
/-- The encoding of DC12's header, in a full buffer. -/
theorem test_case_roundTrip :
    let h : Header :=
      { fin := true, opcode := 2, isMasked := true, contentLen := 65536,
        mask := some { k0 := 1, k1 := 2, k2 := 3, k3 := 4 } }
    h.wf ∧ (∀ k, k < (encodeHeader h).length → (encodeHeader h)[k]? = some (Buf.byte dc12.ibuf k)) ∧
      (encodeHeader h).length ≤ 14 ∧ 14 ≤ 16 := by decide
theorem test_case_encodeCopyDecode :
    exec .encode (header true 2 true 65536 0x04030201) = .next (after .encode (header true 2 true 65536 0x04030201)) ∧
      ∀ k, k < (after .encode (header true 2 true 65536 0x04030201)).obufLen.toNat →
        Buf.byte dc12.ibuf k = Buf.byte (after .encode (header true 2 true 65536 0x04030201)).obuf k := ⟨rfl, by decide⟩
theorem test_case_reencode :
    14 ≤ 16 ∧ ∃ h hl lc nm, decodeHeader dc12.ibuf 14 = .ok h hl lc nm := ⟨by decide, _, _, _, _, rfl⟩

/-- MASK's clauses at their boundaries: the range's end at PBUF_SIZE and one past it, and M9's sum 2^32 + 1. -/
theorem test_case_maskClauses :
    (4095#32).toNat + (1#32).toNat ≤ State.reset.cfg.pbufSize ∧
      State.reset.cfg.pbufSize < (4095#32).toNat + (2#32).toNat ∧
      State.reset.cfg.pbufSize < (0xFFFFFFFF#32).toNat + (2#32).toNat ∧
      (4096#32).toNat + (0#32).toNat ≤ State.reset.cfg.pbufSize := by decide
theorem test_case_mask :
    exec .mask (payload 0x3D21FA37 3 0 5 [0, 0, 0, 0, 0]) = .next (after .mask (payload 0x3D21FA37 3 0 5 [0, 0, 0, 0, 0])) :=
  rfl
theorem test_case_maskTwice :
    let s := payload 0x3D21FA37 0 0 5 [0x7F, 0x9F, 0x4D, 0x51, 0x58]
    exec .mask s = .next (after .mask s) ∧
      exec .mask { after .mask s with maskPhase := s.maskPhase } =
        .next (after .mask { after .mask s with maskPhase := s.maskPhase }) := ⟨rfl, rfl⟩
/-- Five bytes in pieces of 2, 0 and 3. -/
theorem test_case_maskChunks :
    let s := payload 0x3D21FA37 0 4091 0 [0x7F, 0x9F, 0x4D, 0x51, 0x58]
    s.cfg.legal ∧ s.pStart.toNat + (([2, 0, 3] : List Word).map BitVec.toNat).sum ≤ s.cfg.pbufSize ∧
      (∃ u, MaskChunks [2, 0, 3] s u) ∧
      exec .mask { s with pCount := BitVec.ofNat 32 (([2, 0, 3] : List Word).map BitVec.toNat).sum } =
        .next (after .mask { s with pCount := BitVec.ofNat 32 (([2, 0, 3] : List Word).map BitVec.toNat).sum }) :=
  ⟨by decide, by decide, ⟨_, _, rfl, _, rfl, _, rfl, rfl⟩, rfl⟩
/-- A masked and an unmasked header, and five payload bytes at the end of PBUF. -/
theorem test_case_decodeThenMask :
    ∀ s, s = dc1 ∨ s = input [0x01, 0x02] 2 →
      let t := after .decode s
      exec .decode s = .next t ∧ t.status.code = 0 ∧ (4091#32).toNat + (5#32).toNat ≤ s.cfg.pbufSize ∧
        ∃ u, exec .mask { t with pbuf := [(4091, 0x7F)], pStart := 4091, pCount := 5 } = .next u := by
  intro s h
  rcases h with h | h <;> subst h <;> exact ⟨rfl, by decide, by decide, _, rfl⟩

/-- A step that changes the flags and HDR_INFO: a DECODE of DC9. -/
theorem test_case_flagsAndInfoChange :
    let s := placing (.write cmdAddr 1) (input [0x82, 0x7E, 0x00, 0x05] 4)
    step s = .next (nextOr s (step s)) ∧ (nextOr s (step s)).status.flags ≠ s.status.flags ∧
      ¬ SameInfo s (nextOr s (step s)) := ⟨rfl, by decide, by decide⟩
theorem test_case_errors :
    (after .decode State.reset).status.code = 1 ∧ (after .reservedE State.reset).status.code = 2 ∧
      (after .mask { State.reset with pCount := 4097 }).status.code = 3 ∧ (after .encode State.reset).status.code = 0 := by
  decide
theorem test_case_someCommand :
    ∀ i, i = Instr.mask ∨ i = .sreset ∨ i = .reservedE ∨ i = .encode →
      i ≠ .nop ∧ exec i dc1 = .next (after i dc1) := by
  intro i h
  rcases h with h | h | h | h <;> subst h <;> exact ⟨by decide, rfl⟩

/-- Every register has a word address. -/
theorem test_case_registerAddresses :
    ∀ k, k < 14 → byteAddr (BitVec.ofNat 14 k) = 4 * k ∧ (regAt (4 * k)).isSome = true := by decide
theorem test_case_reads : (placing (.read 3) dc1).pending = .read 3 :: [] := by decide
/-- The edges of the unmapped ranges: 0x038, 0x03C, 0x060, 0xFFC, 0x1000 + PBUF_SIZE, 0xFFFC. -/
theorem test_case_unmapped :
    byteAddr 0x00E = 0x038 ∧ byteAddr 0x00F = 0x03C ∧ byteAddr 0x018 = 0x060 ∧ byteAddr 0x3FF = 0xFFC ∧
      byteAddr 0x800 = 0x1000 + State.reset.cfg.pbufSize ∧ byteAddr 0x3FFF = 0xFFFC := by decide
theorem test_case_readOnly :
    byteAddr 0x0 = 0x000 ∧ byteAddr 0x1 = 0x004 ∧ byteAddr 0x3 = 0x00C ∧ byteAddr 0x5 = 0x014 ∧ byteAddr 0xB = 0x02C ∧
      byteAddr 0x14 = 0x050 ∧ byteAddr 0x17 = 0x05C := by decide
theorem test_case_writable :
    byteAddr 0x4 = 0x010 ∧ byteAddr 0x6 = 0x018 ∧ byteAddr 0x7 = 0x01C ∧ byteAddr 0x8 = 0x020 ∧ byteAddr 0x9 = 0x024 ∧
      byteAddr 0xA = 0x028 ∧ byteAddr 0xC = 0x030 ∧ byteAddr 0xD = 0x034 := by decide
/-- IBUF_AVAIL changes by its write, by SRESET and by a reset. -/
theorem test_case_ibufAvailChanges :
    ∀ op, op = .write 10 5 ∨ op = .write cmdAddr 0xF ∨ op = .powerOnReset →
      ∃ t, step (placing op dc8) = .next t ∧ t.ibufAvail ≠ dc8.ibufAvail := by
  intro op h
  rcases h with h | h | h <;> subst h <;> exact ⟨_, rfl, by decide⟩
/-- The first and last words of the windows, and the first word past PBUF. -/
theorem test_case_windows :
    byteAddr 0x10 = 0x040 + 4 * 0 ∧ byteAddr 0x13 = 0x040 + 4 * 3 ∧ byteAddr 0x14 = 0x050 + 4 * 0 ∧
      byteAddr 0x17 = 0x050 + 4 * 3 ∧ byteAddr 0x400 = 0x1000 + 4 * 0 ∧ byteAddr 0x7FF = 0x1000 + 4 * 1023 ∧
      4 * 1023 < State.reset.cfg.pbufSize ∧ byteAddr 0x800 = 0x1000 + 4 * 1024 ∧
      State.reset.cfg.pbufSize ≤ 4 * 1024 := by decide
/-- Writes that store, one of each kind the read-after-write statement names, and a read and a write between. -/
theorem test_case_readAfterWrite :
    ∀ a, a = 0x4 ∨ a = 0x6 ∨ a = 0x7 ∨ a = 0x8 ∨ a = 0x9 ∨ a = 0xA ∨ a = 0xC ∨ a = 0xD ∨ a = 0x13 ∨ a = 0x7FF →
      (∃ t, performOp (.write a 0x12345678) dc8 = .next t) ∧ (∃ t, performOp (.read a) dc8 = .next t) ∧
        0x12 ≠ a ∧ a ≠ cmdAddr := by
  intro a h
  rcases h with h | h | h | h | h | h | h | h | h | h <;> subst h <;> exact ⟨⟨_, rfl⟩, ⟨_, rfl⟩, by decide, by decide⟩
theorem test_case_commute :
    (0x400 : HAddr) ≠ 0x401 ∧ (0x400 : HAddr) ≠ cmdAddr ∧ (0x401 : HAddr) ≠ cmdAddr ∧
      ∃ t u, performOp (.write 0x400 1) dc8 = .next t ∧ performOp (.write 0x401 2) t = .next u :=
  ⟨by decide, by decide, by decide, _, _, rfl, rfl⟩
/-- DC8's key stands at IBUF byte 4, the second word of the window. -/
theorem test_case_alignedKey :
    exec .decode dc8 = .next (after .decode dc8) ∧ (after .decode dc8).status.code = 0 ∧
      (after .decode dc8).masked = true ∧ (after .decode dc8).headerLen.toNat - 4 = 4 * 1 ∧
      byteAddr 0x11 = 0x040 + 4 * 1 := ⟨rfl, by decide⟩

end Sys2Proof.Tests
end

section
/-! PROOFS. The reset values, the step at CMD, and the writers of the flags and of IBUF_AVAIL
(spec/10_state.md R23, R26, R36, R40). -/
namespace Sys2Proof.Machine

/-! ### What each command answers -/

@[simp] theorem exec_nop (s : State) : exec .nop s = .next s := rfl
@[simp] theorem exec_decode (s : State) : exec .decode s = .next (decodeCmd s) := rfl
@[simp] theorem exec_encode (s : State) : exec .encode s = .next (encodeCmd s) := rfl
@[simp] theorem exec_mask (s : State) : exec .mask s = .next (maskCmd s) := rfl
@[simp] theorem exec_sreset (s : State) : exec .sreset s = .next (clearAllButPbuf s) := rfl

/-- Every reserved word does the one thing R132 says, whatever its free bits. -/
theorem exec_of_isReserved (i : Instr) (s : State) (h : i.isReserved = true) :
    exec i s = .next (setStatus codeBadCmd 0 s) := by
  cases i with
  | nop | decode | encode | mask | sreset => simp [Instr.isReserved] at h
  | reserved4to7 | reserved8toB | reservedCtoD | reservedE | reservedRsvd => rfl

@[simp] theorem performOp_powerOnReset (s : State) : performOp .powerOnReset s = .next (powerOnReset s) := rfl

/-! ### Accesses to fixed addresses -/

/-- An address that selects a register is the register's own. -/
theorem regAt_of_target {c : Config} {a : HAddr} {r : Reg} (h : target c a = .reg r) :
    regAt (byteAddr a) = some r := by
  cases hr : regAt (byteAddr a) with
  | some r' =>
    rw [target_of_regAt c a _ r' rfl hr] at h
    injection h with h
    rw [h]
  | none =>
    simp only [target, hr] at h
    split_ifs at h

theorem busRead_of_regAt (s : State) (a : HAddr) (b : Nat) (r : Reg) (h : byteAddr a = b) (hr : regAt b = some r) :
    busRead s a = readReg s r := by
  rw [busRead, target_of_regAt s.cfg a b r h hr, readTarget]

/-- A host write to CMD runs the command of its word (R23). -/
theorem performOp_write_cmd (s : State) (w : Word) : performOp (.write cmdAddr w) s = exec (decode w) s := by
  simp [performOp, performWrite, target_eq_cmd]

theorem busRead_cmd (s : State) : busRead s cmdAddr = 0 := busRead_of_regAt s cmdAddr 0x008 .cmd rfl rfl

/-- A step of a host with accesses to come performs the first of them. -/
theorem step_of_pending {s : State} {op : HostOp} {rest : List HostOp} (h : s.pending = op :: rest) :
    step s = performOp op { s with pending := rest } := by
  simp only [step, h]

/-- Concatenated fields, as numbers. -/
theorem toNat_append_eq_add {m n : Nat} (a : BitVec m) (b : BitVec n) :
    (a ++ b).toNat = 2 ^ n * a.toNat + b.toNat := by
  rw [BitVec.toNat_append, Nat.shiftLeft_eq, Nat.mul_comm, ← Nat.two_pow_add_eq_or_of_lt b.isLt]

/-- CFG read as a number: the three sizes in their fields (R22). -/
theorem cfgWord_toNat (c : Config) (h : c.legal) : (cfgWord c).toNat = 0x10100000 + c.pbufSize := by
  obtain ⟨-, -, hmax⟩ := h
  simp only [cfgWord, toNat_append_eq_add, BitVec.toNat_ofNat]
  omega

/-! ### Reset values -/

/-- After every kind of reset the registers and buffers are at their reset values: SRESET, the power-on state and
the power-on reset are `clearAllButPbuf` with some PBUF and some values of the model's own fields. -/
theorem registersAtReset_clearAllButPbuf_with (s : State) (pbuf : Memory) (cfg : Config) (k : Nat) (ops : List HostOp)
    (obs : List Word) :
    RegistersAtReset
      { clearAllButPbuf s with pbuf := pbuf, cfg := cfg, powerOns := k, pending := ops, observed := obs } where
  fin := rfl
  opcode := rfl
  masked := rfl
  contentLen := rfl
  maskKey := rfl
  headerLen := rfl
  lclass := rfl
  status := Status.word_clear
  maskPhase := rfl
  ibuf i _ := Buf.byte_replicate_zero i
  ibufAvail := rfl
  obuf i _ := Buf.byte_replicate_zero i
  obufLen := rfl
  pStart := rfl
  pCount := rfl

theorem registersAtReset_clearAllButPbuf (s : State) : RegistersAtReset (clearAllButPbuf s) :=
  registersAtReset_clearAllButPbuf_with s s.pbuf s.cfg s.powerOns s.pending s.observed

theorem registersAtReset_powerOn (cfg : Config) (k : Nat) (ops : List HostOp) :
    RegistersAtReset (State.powerOn cfg k ops) :=
  registersAtReset_clearAllButPbuf_with State.reset [] cfg k ops []

/-- No PBUF byte is written after power-on, so each reads as its draw. -/
theorem pbufByte_powerOn (cfg : Config) (k : Nat) (ops : List HostOp) (a : Nat) :
    pbufByte (State.powerOn cfg k ops) a = Config.pbufDraw k a := rfl

theorem samePbuf_clearAllButPbuf (s : State) : SamePbuf s (clearAllButPbuf s) := pbufByte_congr rfl rfl

/-! ### The flags -/

/-- The commands that can change the flags, and when (R26). -/
theorem exec_flags_cases (i : Instr) (s t : State) (h : exec i s = .next t) :
    t.status.flags = s.status.flags ∨ (i = .decode ∧ t.status.code = 0) ∨ i = .encode ∨ i = .sreset := by
  rcases exec_cases i s t h with ⟨-, rfl⟩ | ⟨rfl, rfl⟩ | ⟨rfl, -⟩ | ⟨-, rfl⟩ | ⟨rfl, -⟩ | ⟨-, rfl⟩
  · exact .inl rfl
  · rcases decodeCmd_cases s with ⟨need, -, hd⟩ | ⟨hdr, hl, lc, nm, -, hd⟩ <;> rw [hd]
    · exact .inl rfl
    · exact .inr (.inl ⟨rfl, rfl⟩)
  · exact .inr (.inr (.inl rfl))
  · rcases maskCmd_cases s with ⟨-, hm⟩ | ⟨-, hm⟩ <;> rw [hm] <;> exact .inl rfl
  · exact .inr (.inr (.inr rfl))
  · exact .inl rfl

/-- A host operation changes the flags only as R26 allows. -/
theorem performOp_flags_cases (op : HostOp) (s t : State) (h : performOp op s = .next t) :
    t.status.flags = s.status.flags ∨ op = .powerOnReset ∨
      ∃ w, op = .write cmdAddr w ∧
        ((decode w = .decode ∧ t.status.code = 0) ∨ decode w = .encode ∨ decode w = .sreset) := by
  rcases performOp_cases op s t h with ⟨a, -, rfl⟩ | ⟨w, rfl, he⟩ | ⟨a, w, -, -, rfl⟩ | ⟨rfl, -⟩
  · exact .inl rfl
  · rcases exec_flags_cases _ s t he with hf | hw
    · exact .inl hf
    · exact .inr (.inr ⟨w, rfl, hw⟩)
  · obtain ⟨-, -, -, -, hstatus, -⟩ := busWrite_frame s a w
    exact .inl (by rw [hstatus])
  · exact .inr (.inl rfl)

/-- DECODE does not read the flags: it writes all four or leaves them. -/
theorem decodeCmd_setFlags (f : Flags) (s : State) :
    decodeCmd (setFlags f s) = decodeCmd s ∨ decodeCmd (setFlags f s) = setFlags f (decodeCmd s) := by
  simp only [decodeCmd, setFlags_ibuf, setFlags_ibufAvail]
  cases decodeHeader s.ibuf s.ibufAvail.toNat with
  | incomplete need => exact .inr rfl
  | ok h hl lc nm => exact .inl rfl

/-- ENCODE does not read the flags: it writes all four. -/
theorem encodeCmd_setFlags (f : Flags) (s : State) : encodeCmd (setFlags f s) = encodeCmd s := rfl

/-- PBUF bytes do not depend on the flags. -/
theorem pbufBytes_setFlags (f : Flags) (s : State) (a n : Nat) : pbufBytes (setFlags f s) a n = pbufBytes s a n :=
  pbufBytes_congr (setFlags_pbuf s f) (setFlags_powerOns s f) a n

/-- MASK neither reads nor writes the flags. -/
theorem maskCmd_setFlags (f : Flags) (s : State) : maskCmd (setFlags f s) = setFlags f (maskCmd s) := by
  simp only [maskCmd, setFlags_cfg, setFlags_pStart, setFlags_pCount, setFlags_maskKey, setFlags_maskPhase,
    pbufBytes_setFlags]
  split <;> rfl

/-- No command reads the flags (R26). -/
theorem exec_setFlags (i : Instr) (s t : State) (f : Flags) (h : exec i s = .next t) :
    exec i (setFlags f s) = .next t ∨ exec i (setFlags f s) = .next (setFlags f t) := by
  rcases exec_cases i s t h with ⟨rfl, rfl⟩ | ⟨rfl, rfl⟩ | ⟨rfl, rfl⟩ | ⟨rfl, rfl⟩ | ⟨rfl, rfl⟩ | ⟨hi, rfl⟩
  · exact .inr (exec_nop _)
  · rw [exec_decode]
    exact (decodeCmd_setFlags f s).imp (congrArg _) (congrArg _)
  · exact .inl (by rw [exec_encode, encodeCmd_setFlags])
  · exact .inr (by rw [exec_mask, maskCmd_setFlags])
  · exact .inl rfl
  · exact .inr (exec_of_isReserved i (setFlags f s) hi)

/-! ### IBUF_AVAIL -/

/-- The stored count as a number (R36). -/
theorem legalAvail_toNat (w : Word) : (legalAvail w).toNat = min (w.toNat % 32) 16 := by
  simp only [legalAvail, BitVec.toNat_ofNat, BitVec.extractLsb'_toNat, Nat.shiftRight_zero]
  omega

/-- DECODE reads IBUF_AVAIL and leaves it. -/
@[simp] theorem decodeCmd_ibufAvail (s : State) : (decodeCmd s).ibufAvail = s.ibufAvail := by
  rcases decodeCmd_cases s with ⟨need, -, hd⟩ | ⟨hdr, hl, lc, nm, -, hd⟩ <;> rw [hd] <;> rfl

@[simp] theorem maskCmd_ibufAvail (s : State) : (maskCmd s).ibufAvail = s.ibufAvail := by
  rcases maskCmd_cases s with ⟨-, hm⟩ | ⟨-, hm⟩ <;> rw [hm] <;> rfl

/-- SRESET is the only command that writes IBUF_AVAIL, and it leaves 0. -/
theorem exec_ibufAvail_cases (i : Instr) (s t : State) (h : exec i s = .next t) :
    t.ibufAvail = s.ibufAvail ∨ (i = .sreset ∧ t.ibufAvail = 0) := by
  rcases exec_cases i s t h with ⟨-, rfl⟩ | ⟨-, rfl⟩ | ⟨-, rfl⟩ | ⟨-, rfl⟩ | ⟨rfl, rfl⟩ | ⟨-, rfl⟩
  · exact .inl rfl
  · exact .inl (decodeCmd_ibufAvail s)
  · exact .inl rfl
  · exact .inl (maskCmd_ibufAvail s)
  · exact .inr ⟨rfl, rfl⟩
  · exact .inl rfl

/-- A host store writes IBUF_AVAIL only at IBUF_AVAIL's own address. -/
theorem busWrite_ibufAvail_of_ne (s : State) (a : HAddr) (w : Word) (ha : byteAddr a ≠ 0x028) :
    (busWrite s a w).ibufAvail = s.ibufAvail := by
  rw [busWrite]
  cases ht : target s.cfg a with
  | reg r =>
    have hr : r ≠ .ibufAvail := by
      rintro rfl
      exact ha (regAt_injective (regAt_of_target ht) rfl)
    cases r with
    | ibufAvail => exact absurd rfl hr
    | _ => rfl
  | _ => rfl

/-- A host operation changes IBUF_AVAIL only by a write of it, or by SRESET or a reset, which leave 0 (R36). -/
theorem performOp_ibufAvail_cases (op : HostOp) (s t : State) (h : performOp op s = .next t) :
    t.ibufAvail = s.ibufAvail ∨ (∃ a w, op = .write a w ∧ byteAddr a = 0x028) ∨
      ((∃ w, op = .write cmdAddr w ∧ decode w = .sreset) ∨ op = .powerOnReset) ∧ t.ibufAvail = 0 := by
  rcases performOp_cases op s t h with ⟨a, -, rfl⟩ | ⟨w, rfl, he⟩ | ⟨a, w, rfl, -, rfl⟩ | ⟨rfl, rfl⟩
  · exact .inl rfl
  · rcases exec_ibufAvail_cases _ s t he with hsame | ⟨hw, hzero⟩
    · exact .inl hsame
    · exact .inr (.inr ⟨.inl ⟨w, rfl, hw⟩, hzero⟩)
  · by_cases ha : byteAddr a = 0x028
    · exact .inr (.inl ⟨a, w, rfl, ha⟩)
    · exact .inl (busWrite_ibufAvail_of_ne s a w ha)
  · exact .inr (.inr ⟨.inr rfl, rfl⟩)

/-! ### The statements -/

/-- Settles O44: a step's flags follow those of its host operation, and each command commutes with `setFlags` or
overwrites what it wrote. -/
theorem flagsChangeOnlyWithHeaderCommandsAndReset : Obligations.FlagsChangeOnlyWithHeaderCommandsAndReset := by
  unfold Obligations.FlagsChangeOnlyWithHeaderCommandsAndReset
  refine ⟨fun s t h hne => ?_, fun s => ⟨_, _, exec_sreset s, rfl, performOp_powerOnReset s, rfl⟩, exec_setFlags⟩
  rcases step_cases s t h with ⟨-, rfl⟩ | ⟨op, rest, hp, hop⟩
  · exact absurd rfl hne
  · exact ⟨op, rest, hp, (performOp_flags_cases op _ t hop).resolve_left hne⟩

/-- Settles O54: the access selects IBUF_AVAIL by its address, and a step's IBUF_AVAIL follows that of its host
operation. -/
theorem ibufAvailWriteIsLegalised : Obligations.IbufAvailWriteIsLegalised := by
  unfold Obligations.IbufAvailWriteIsLegalised
  refine ⟨fun s a w ha => ⟨?_, ?_⟩, fun s t h hne => ?_⟩
  · rw [busRead_of_regAt s a 0x028 .ibufAvail ha rfl, readReg, toNat_append_eq_add]
    simp
  · have ht : target s.cfg a = .reg .ibufAvail := target_of_regAt s.cfg a 0x028 .ibufAvail ha rfl
    exact ⟨_, performOp_write s a w _ ht (by decide), rfl, legalAvail_toNat w⟩
  · rcases step_cases s t h with ⟨-, rfl⟩ | ⟨op, rest, hp, hop⟩
    · exact absurd rfl hne
    · exact ⟨op, rest, hp, (performOp_ibufAvail_cases op _ t hop).resolve_left hne⟩

/-- Settles O5: the step performs the access, which at CMD's address runs a command or reads 0. -/
theorem stepRunsTheDecodedCommand : Obligations.StepRunsTheDecodedCommand := by
  unfold Obligations.StepRunsTheDecodedCommand
  refine fun s w rest => ⟨fun h => ?_, fun h => ?_⟩
  · rw [step_of_pending h, performOp_write_cmd]
  · rw [step_of_pending h, performOp, busRead_cmd]

/-- Settles O14: both resets leave `clearAllButPbuf`'s registers, and the words of ID and CFG depend on the parameters
alone. -/
theorem resetValues : Obligations.ResetValues := by
  unfold Obligations.ResetValues
  refine ⟨fun cfg k ops => ⟨registersAtReset_powerOn cfg k ops, pbufByte_powerOn cfg k ops⟩,
    fun s => ⟨_, exec_sreset s, registersAtReset_clearAllButPbuf s, samePbuf_clearAllButPbuf s⟩,
    fun s => ⟨?_, fun hc => ?_⟩⟩
  · rw [busRead_of_regAt s 0 0x000 .id rfl rfl, readReg, idWord]
  · rw [busRead_of_regAt s 1 0x004 .cfg rfl rfl, readReg, cfgWord_toNat s.cfg hc]

end Sys2Proof.Machine
end

section
/-! PROOFS. The host bus as a memory: the three windows, the unmapped ranges, and reading after writing
(spec/20_memory.md R52, R53, R59, R60, R61, R67). -/
namespace Sys2Proof.Machine

/-! ### Addresses of the windows -/

/-- From an aligned base up, every address is that of a word of the window that starts there. -/
theorem exists_word_of_le_byteAddr (a : HAddr) (base : Nat) (hbase : base % 4 = 0) (h : base ≤ byteAddr a) :
    ∃ k, byteAddr a = base + 4 * k := by
  have ha : byteAddr a % 4 = 0 := by simp [byteAddr]
  exact ⟨(byteAddr a - base) / 4, by omega⟩

theorem busRead_of_target {s : State} {a : HAddr} {g : Target} (h : target s.cfg a = g) :
    busRead s a = readTarget s g := by rw [busRead, h]

/-! ### Reading the word just stored -/

/-- A word stored in a header buffer is read back (R59). -/
@[simp] theorem Buf.word_storeWord_same (b : Buf) (k : Nat) (w : Word) (hk : k < 4) :
    Buf.word (Buf.storeWord b k w) k = w := by
  simp [Buf.word, Buf.byte_storeWord, hk, ofLanes_lanes]

theorem Buf.word_storeWord_of_ne (b : Buf) (j k : Nat) (w : Word) (hj : j < 4) (hjk : j ≠ k) :
    Buf.word (Buf.storeWord b j w) k = Buf.word b k := by
  simp only [Buf.word, Buf.byte_storeWord _ _ _ _ hj]
  rw [if_neg (by omega), if_neg (by omega), if_neg (by omega), if_neg (by omega)]

/-- Storing PBUF word `k` changes bytes 4k to 4k+3, each to its lane (R61). -/
theorem pbufByte_writeTarget_pbuf (s : State) (k : Nat) (w : Word) (i : Nat) :
    pbufByte (writeTarget s w (.pbuf k)) i = if 4 * k ≤ i ∧ i < 4 * k + 4 then lane w (i - 4 * k) else pbufByte s i := by
  rw [writeTarget, pbufByte_writePbuf, List.length_cons]
  by_cases h : 4 * k ≤ i ∧ i < 4 * k + 4
  · obtain ⟨j, hj, rfl⟩ : ∃ j, j < 4 ∧ i = 4 * k + j := ⟨i - 4 * k, by omega, by omega⟩
    have : j = 0 ∨ j = 1 ∨ j = 2 ∨ j = 3 := by omega
    rcases this with rfl | rfl | rfl | rfl <;> simp
  · exact (if_neg h).trans (if_neg h).symm

/-- A word stored in PBUF is read back (R61). -/
@[simp] theorem readTarget_writeTarget_pbuf_same (s : State) (k : Nat) (w : Word) :
    readTarget (writeTarget s w (.pbuf k)) (.pbuf k) = w := by
  simp [readTarget, pbufByte_writeTarget_pbuf, ofLanes_lanes]

/-- HDR_CTRL gives back the bits of its three fields, bit by bit, and 0 in its reserved bits (R27). -/
theorem readReg_writeReg_hdrCtrl (s : State) (w : Word) : readReg (writeReg s w .hdrCtrl) .hdrCtrl = w &&& 0x1F1 := by
  have hmask : ∀ i, i < 32 → (0x1F1 : Word).getLsbD i = decide (i = 0 ∨ 4 ≤ i ∧ i < 9) := by decide
  apply BitVec.eq_of_getLsbD_eq
  intro i hi
  rw [BitVec.getLsbD_and, hmask i hi]
  simp only [readReg, writeReg, BitVec.getLsbD_append, BitVec.getLsbD_extractLsb', BitVec.getLsbD_ofBool,
    BitVec.getLsbD_zero]
  grind

/-- MASK_PHASE gives back the low two bits (R32). -/
theorem readReg_writeReg_maskPhase (s : State) (w : Word) :
    readReg (writeReg s w .maskPhase) .maskPhase = w &&& 0x3 := by
  apply BitVec.eq_of_toNat_eq
  simp only [readReg, writeReg, toNat_append_eq_add, BitVec.extractLsb'_toNat, BitVec.toNat_and]
  simpa using (Nat.and_two_pow_sub_one_eq_mod w.toNat 2).symm

/-! ### Reading another word -/

/-- A write to one register leaves what every other register reads, the two halves of CONTENT_LEN included. -/
theorem readReg_writeReg_of_ne (s : State) (w : Word) {r r' : Reg} (h : r ≠ r') :
    readReg (writeReg s w r) r' = readReg s r' := by
  cases r' with
  | lenLo =>
    cases r with
    | lenLo => exact absurd rfl h
    | lenHi => exact BitVec.extractLsb'_append_eq_right
    | _ => rfl
  | lenHi =>
    cases r with
    | lenHi => exact absurd rfl h
    | lenLo => exact BitVec.extractLsb'_append_eq_left
    | _ => rfl
  | _ => cases r <;> simp_all [readReg, writeReg]

/-- A write to a register leaves what every other target reads. -/
theorem readTarget_writeReg_of_ne (s : State) (w : Word) {r : Reg} {g : Target} (h : Target.reg r ≠ g) :
    readTarget (writeReg s w r) g = readTarget s g := by
  cases g with
  | reg r' => exact readReg_writeReg_of_ne s w (fun hr => h (congrArg _ hr))
  | _ => cases r <;> rfl

/-- A store to an IBUF word leaves what every other target reads. -/
theorem readTarget_writeTarget_ibuf_of_ne (s : State) (w : Word) {k : Nat} {g : Target} (hk : k < 4)
    (h : Target.ibuf k ≠ g) : readTarget (writeTarget s w (.ibuf k)) g = readTarget s g := by
  cases g with
  | reg r => cases r <;> rfl
  | ibuf j => exact Buf.word_storeWord_of_ne s.ibuf k j w hk (fun hj => h (congrArg _ hj))
  | _ => rfl

/-- A store to a PBUF word leaves what every other target reads. -/
theorem readTarget_writeTarget_pbuf_of_ne (s : State) (w : Word) {k : Nat} {g : Target}
    (h : Target.pbuf k ≠ g) : readTarget (writeTarget s w (.pbuf k)) g = readTarget s g := by
  cases g with
  | reg r => cases r <;> rfl
  | pbuf j =>
    have hkj : k ≠ j := fun hj => h (congrArg _ hj)
    simp only [readTarget, pbufByte_writeTarget_pbuf]
    rw [if_neg (by omega), if_neg (by omega), if_neg (by omega), if_neg (by omega)]
  | _ => rfl

/-- A host store leaves what every target reads but the one it selects. -/
theorem readTarget_busWrite_of_ne (s : State) (b : HAddr) (w : Word) {g : Target} (h : target s.cfg b ≠ g) :
    readTarget (busWrite s b w) g = readTarget s g := by
  rcases target_cases s.cfg b with ⟨r, hb⟩ | ⟨k, hk, hb⟩ | ⟨k, -, hb⟩ | ⟨k, -, hb⟩ | hb <;> rw [hb] at h <;>
    rw [busWrite, hb]
  · exact readTarget_writeReg_of_ne s w h
  · exact readTarget_writeTarget_ibuf_of_ne s w hk h
  · rfl
  · exact readTarget_writeTarget_pbuf_of_ne s w h
  · rfl

/-! ### Reading after an access -/

/-- A host store leaves what every other address reads (R67). -/
theorem busRead_busWrite_of_ne (s : State) (a b : HAddr) (w : Word) (hab : a ≠ b) :
    busRead (busWrite s b w) a = busRead s a := by
  have hcfg : (busWrite s b w).cfg = s.cfg := (busWrite_frame s b w).1
  rw [busRead, busRead, hcfg]
  rcases target_ne_of_ne s.cfg a b hab with ha | hb | hne
  · rw [ha]; rfl
  · rw [busWrite, hb]; rfl
  · exact readTarget_busWrite_of_ne s b w hne.symm

/-- A host read leaves what every address reads (R58). -/
theorem busRead_observed (s : State) (obs : List Word) (a : HAddr) :
    busRead { s with observed := obs } a = busRead s a := by
  simp only [busRead]
  cases target s.cfg a with
  | reg r => cases r <;> rfl
  | _ => rfl

/-- After a host store the address reads what its target then holds. -/
theorem busRead_of_performOp_write {s t : State} {a : HAddr} {w : Word} {g : Target} (hg : target s.cfg a = g)
    (hcmd : g ≠ .reg .cmd) (h : performOp (.write a w) s = .next t) : busRead t a = readTarget (writeTarget s w g) g := by
  have hcfg : (busWrite s a w).cfg = s.cfg := (busWrite_frame s a w).1
  rw [performOp_write s a w g hg hcmd, Host.Outcome.next.injEq] at h
  rw [busWrite, hg, h] at hcfg
  rw [h, busRead, hcfg, hg]

/-- After a host write to a register other than CMD the address reads what the register then holds. -/
theorem busRead_of_performOp_write_reg {s t : State} {a : HAddr} {w : Word} (b : Nat) (r : Reg)
    (h : performOp (.write a w) s = .next t) (ha : byteAddr a = b) (hr : regAt b = some r) (hcmd : r ≠ .cmd) :
    busRead t a = readReg (writeReg s w r) r :=
  busRead_of_performOp_write (target_of_regAt s.cfg a b r ha hr) (fun he => hcmd (Target.reg.inj he)) h

/-! ### The statements -/

/-- Settles O51: the address selects nothing. -/
theorem unmappedAccessesAreHarmless : Obligations.UnmappedAccessesAreHarmless := by
  unfold Obligations.UnmappedAccessesAreHarmless
  intro s a w ha
  have ht : target s.cfg a = .unmapped := target_unmapped s.cfg a ha
  have hread : busRead s a = 0 := busRead_of_target ht
  exact ⟨hread, performOp_write s a w _ ht (by decide), by rw [performOp, hread]⟩

/-- Settles O55: the address selects IBUF word k, whose store is `Buf.byte_storeWord`. -/
theorem ibufWindowLanes : Obligations.IbufWindowLanes := by
  unfold Obligations.IbufWindowLanes
  intro s a w k hk ha
  have ht : target s.cfg a = .ibuf k := target_ibuf s.cfg a k hk ha
  refine ⟨busRead_of_target ht, _, performOp_write s a w _ ht (by simp), rfl, fun j hj => ?_, fun i hi => ?_⟩
  · rw [writeTarget, Buf.byte_storeWord _ _ _ _ hk, if_pos (by omega), Nat.add_sub_cancel_left, lane]
  · rw [writeTarget, Buf.byte_storeWord _ _ _ _ hk, if_neg (by omega)]

/-- Settles O56: the address selects OBUF word k, which no host write stores to. -/
theorem obufWindowLanes : Obligations.ObufWindowLanes := by
  unfold Obligations.ObufWindowLanes
  intro s a w k hk ha
  have ht : target s.cfg a = .obuf k := target_obuf s.cfg a k hk ha
  exact ⟨busRead_of_target ht, performOp_write s a w _ ht (by simp)⟩

/-- Settles O57: below PBUF_SIZE the address selects PBUF word k, from there on nothing. -/
theorem pbufWindowLanes : Obligations.PbufWindowLanes := by
  unfold Obligations.PbufWindowLanes
  intro s a w k _ ha
  refine ⟨fun hk => ?_, fun hk => ?_⟩
  · have ht : target s.cfg a = .pbuf k := target_pbuf s.cfg a k hk ha
    refine ⟨busRead_of_target ht, _, performOp_write s a w _ ht (by simp), rfl, fun j hj => ?_, fun i hi => ?_⟩
    · rw [pbufByte_writeTarget_pbuf, if_pos (by omega), Nat.add_sub_cancel_left, lane]
    · rw [pbufByte_writeTarget_pbuf, if_neg (by omega)]
  · obtain ⟨hread, hwrite, -⟩ := unmappedAccessesAreHarmless s a w (.inr (.inr (by omega)))
    exact ⟨hread, hwrite⟩

/-- Settles O58: another access leaves what the target reads, and each target reads back what its own store keeps. -/
theorem readAfterWriteReturnsWhatWasStored : Obligations.ReadAfterWriteReturnsWhatWasStored := by
  unfold Obligations.ReadAfterWriteReturnsWhatWasStored
  refine ⟨fun s t a b w h => ?_, fun s t a w h => ⟨fun ha => ?_, fun ha => ?_, fun ha => ?_, fun ha => ?_,
    fun hlo hhi => ?_, fun hlo hhi => ?_⟩⟩
  · rcases h with ⟨hab, hb, h⟩ | h
    · rw [performOp_write s b w _ rfl (by rwa [Ne, target_eq_cmd]), Host.Outcome.next.injEq] at h
      exact h ▸ busRead_busWrite_of_ne s a b w hab
    · rw [performOp, Host.Outcome.next.injEq] at h
      exact h ▸ busRead_observed s _ a
  · rw [busRead_of_performOp_write_reg 0x010 .hdrCtrl h ha rfl (by decide), readReg_writeReg_hdrCtrl]
  · rcases ha with ha | ha | ha | ha | ha
    · rw [busRead_of_performOp_write_reg 0x018 .lenLo h ha rfl (by decide)]
      exact BitVec.extractLsb'_append_eq_right
    · rw [busRead_of_performOp_write_reg 0x01C .lenHi h ha rfl (by decide)]
      exact BitVec.extractLsb'_append_eq_left
    · exact busRead_of_performOp_write_reg 0x020 .maskKey h ha rfl (by decide)
    · exact busRead_of_performOp_write_reg 0x030 .pStart h ha rfl (by decide)
    · exact busRead_of_performOp_write_reg 0x034 .pCount h ha rfl (by decide)
  · rw [busRead_of_performOp_write_reg 0x024 .maskPhase h ha rfl (by decide), readReg_writeReg_maskPhase]
  · obtain ⟨hread, -⟩ := ibufAvailWriteIsLegalised.1 t a w ha
    obtain ⟨-, t', h', -, havail⟩ := ibufAvailWriteIsLegalised.1 s a w ha
    rw [h, Host.Outcome.next.injEq] at h'
    rw [hread, h', havail]
  · obtain ⟨k, hk⟩ := exists_word_of_le_byteAddr a 0x040 (by decide) hlo
    have hk4 : k < 4 := by omega
    rw [busRead_of_performOp_write (target_ibuf s.cfg a k hk4 hk) (by simp) h]
    exact Buf.word_storeWord_same s.ibuf k w hk4
  · obtain ⟨k, hk⟩ := exists_word_of_le_byteAddr a 0x1000 (by decide) hlo
    rw [busRead_of_performOp_write (target_pbuf s.cfg a k (by omega) hk) (by simp) h,
      readTarget_writeTarget_pbuf_same]

end Sys2Proof.Machine
end

section
/-! PROOFS. The encodings: command words, header fields and length widths
(spec/30_encoding.md R71, R80, R84, R86, R88). -/
namespace Sys2Proof

/-! ### Command words by their fields -/

/-- A word is its RSVD and OP fields (R70). -/
theorem rsvdField_append_opField (w : Word) : rsvdField w ++ opField w = w :=
  (BitVec.extractLsb'_append_extractLsb'_eq_extractLsb' rfl).trans BitVec.extractLsb'_eq_self

/-- A row that tests all of RSVD for 0 matches no word whose RSVD is not 0. -/
theorem Row.Matches.rsvdField_eq_zero {r : Row} {w : Word} (h : r.Matches w)
    (hmask : rsvdField r.mask = BitVec.allOnes 28) (hpattern : rsvdField r.pattern = 0) : rsvdField w = 0 := by
  calc rsvdField w
      = rsvdField w &&& rsvdField r.mask := by rw [hmask, BitVec.and_allOnes]
    _ = rsvdField (w &&& r.mask) := BitVec.extractLsb'_and.symm
    _ = 0 := by rw [h, hpattern]

/-- A word whose RSVD is not 0 falls through to the table's last row (R72). -/
theorem decode_of_rsvdField_ne_zero {w : Word} (hw : rsvdField w ≠ 0) :
    decode w = .reservedRsvd (opField w) (rsvdField w) := by
  have hrow (r : Row) (hmask : rsvdField r.mask = BitVec.allOnes 28) (hpattern : rsvdField r.pattern = 0) :
      ¬ r.Matches w := fun h => hw (h.rsvdField_eq_zero hmask hpattern)
  rw [decode, if_neg (hrow rowNop rfl rfl), if_neg (hrow rowDecode rfl rfl), if_neg (hrow rowEncode rfl rfl),
    if_neg (hrow rowMask rfl rfl), if_neg (hrow rowSreset rfl rfl), if_neg (hrow rowReserved4to7 rfl rfl),
    if_neg (hrow rowReserved8toB rfl rfl), if_neg (hrow rowReservedCtoD rfl rfl), if_neg (hrow rowReservedE rfl rfl)]

end Sys2Proof

namespace Sys2Proof.Machine

/-! ### What decoding reads of a buffer -/

theorem wireLen_congr {ib ib' : Buf} (h : ∀ k, k ≠ 0 → Buf.byte ib' k = Buf.byte ib k) : wireLen ib' = wireLen ib := by
  simp [wireLen, h]

theorem keyAt_congr {ib ib' : Buf} (h : ∀ k, k ≠ 0 → Buf.byte ib' k = Buf.byte ib k) {i : Nat} (hi : i ≠ 0) :
    keyAt ib' i = keyAt ib i := by
  simp [keyAt, h, hi]

/-- Of byte 0, `decodeHeader` reads FIN and the opcode alone. -/
theorem decodeHeader_congr_of_byte_zero {ib ib' : Buf} (n : Nat) (h : ∀ k, k ≠ 0 → Buf.byte ib' k = Buf.byte ib k)
    (hfin : wireFin (Buf.byte ib' 0) = wireFin (Buf.byte ib 0))
    (hop : wireOpcode (Buf.byte ib' 0) = wireOpcode (Buf.byte ib 0)) : decodeHeader ib' n = decodeHeader ib n := by
  have hkey (e : Nat) : keyAt ib' (2 + e) = keyAt ib (2 + e) := keyAt_congr h (by omega)
  simp only [decodeHeader, h 1 one_ne_zero, hfin, hop, hkey, wireLen_congr h]

/-- DECODE reads IBUF through `decodeHeader` alone, and leaves it. -/
theorem decodeCmd_ibuf_congr {s : State} {ib : Buf}
    (h : decodeHeader ib s.ibufAvail.toNat = decodeHeader s.ibuf s.ibufAvail.toNat) :
    decodeCmd { s with ibuf := ib } = { decodeCmd s with ibuf := ib } := by
  simp only [decodeCmd, h]
  cases decodeHeader s.ibuf s.ibufAvail.toNat with
  | incomplete need => rfl
  | ok hdr hl lc nm => rfl

/-! ### Byte 1 and the lengths as numbers -/

theorem wireLen7_toNat (b1 : Byte) : (wireLen7 b1).toNat = b1.toNat % 128 := by
  rw [wireLen7, BitVec.extractLsb'_toNat, Nat.shiftRight_zero]

theorem wireMasked_iff (b1 : Byte) : wireMasked b1 = true ↔ 128 ≤ b1.toNat := by
  rw [wireMasked, ← BitVec.msb_eq_getLsbD_last b1, BitVec.msb_eq_decide, decide_eq_true_iff]

/-- Byte 0 of OBUF after ENCODE (R106, R107). -/
theorem byte_zero_obuf_encodeCmd (s : State) :
    Buf.byte (encodeCmd s).obuf 0 = BitVec.ofBool s.fin ++ 0#3 ++ s.opcode := by
  rw [encodeCmd, setStatus_obuf, storeHeader_obuf, Buf.byte_ofBytes _ _ (by decide), encodeHeader_getElem?, if_pos rfl]
  rfl

/-! ### The statements -/

/-- Settles O2: with RSVD not 0 only the last row is left, and with RSVD 0 there are 16 words, one for each OP. -/
theorem everyWordSelectsExactlyOneCommand : Obligations.EveryWordSelectsExactlyOneCommand := by
  unfold Obligations.EveryWordSelectsExactlyOneCommand
  intro w
  by_cases hw : rsvdField w = 0
  · rw [← rsvdField_append_opField w, hw]
    generalize opField w = op
    revert op
    decide
  · have hne (c : Word) (hc : rsvdField c = 0) : w ≠ c := fun h => hw (h ▸ hc)
    rw [decode_of_rsvdField_ne_zero hw]
    simp only [reduceCtorEq, hne 0x00000000 rfl, hne 0x00000001 rfl, hne 0x00000002 rfl, hne 0x00000003 rfl,
      hne 0x0000000F rfl, iff_self, true_and]
    exact ⟨fun _ => .inl hw, fun _ => rfl⟩

/-- Settles O25: decoding reads FIN and the opcode of byte 0, DECODE reads IBUF through that, and an encoded byte 0 has
000 between them. -/
theorem rsvBitsAreIgnoredAndWrittenZero : Obligations.RsvBitsAreIgnoredAndWrittenZero := by
  unfold Obligations.RsvBitsAreIgnoredAndWrittenZero
  refine ⟨fun ib ib' n h hfin hop => decodeHeader_congr_of_byte_zero n h hfin hop,
    fun s t t' ib' h hfin hop ht ht' => ?_, fun s t ht => ?_⟩
  · rw [exec_decode, Host.Outcome.next.injEq] at ht ht'
    rw [← ht', ← ht]
    exact decodeCmd_ibuf_congr (decodeHeader_congr_of_byte_zero _ h hfin hop)
  · rw [exec_encode, Host.Outcome.next.injEq] at ht
    rw [← ht, byte_zero_obuf_encodeCmd]
    generalize s.fin = fin, s.opcode = op
    revert fin op
    decide

/-- Settles O27: `headerLenOf` with its two fields as numbers. -/
theorem headerLengthOfByteOne : Obligations.HeaderLengthOfByteOne := by
  unfold Obligations.HeaderLengthOfByteOne
  intro b1
  simp only [headerLenOf, ext_eq, wireLen7_toNat, wireMasked_iff]

/-- Settles O31: the class is chosen by the length, and so are its width and `len7`. -/
theorem lengthWidthSelection : Obligations.LengthWidthSelection := by
  unfold Obligations.LengthWidthSelection
  intro len
  rw [extOfClass_lenClass, encodedLen7_toNat, lenClass]
  refine ⟨fun h => ?_, fun hlo hhi => ?_, fun h => ?_⟩
  · simp only [if_pos h, and_self]
  · simp only [if_neg (show ¬ len.toNat ≤ 125 by omega), if_pos hhi, and_self]
  · simp only [if_neg (show ¬ len.toNat ≤ 125 by omega), if_neg (show ¬ len.toNat ≤ 65535 by omega), and_self]

/-- Settles O33: each predicate is a disjunction of tests for equality. -/
theorem opcodePredicates : Obligations.OpcodePredicates := by
  unfold Obligations.OpcodePredicates
  intro op
  simp [isControl, isKnown, or_assoc]

end Sys2Proof.Machine
end

section
/-! PROOFS. DECODE: what it answers and writes, where the key stands, resuming it, and minimality
(spec/41_header_codec.md R102, R103, R104, R110). -/
namespace Sys2Proof.Machine

/-! ### The header a buffer begins with -/

/-- The header whose wire form stands at the start of a buffer (R75 to R78). -/
def wireHeader (ib : Buf) : Header where
  fin := wireFin (Buf.byte ib 0)
  opcode := wireOpcode (Buf.byte ib 0)
  isMasked := wireMasked (Buf.byte ib 1)
  mask := if wireMasked (Buf.byte ib 1) then some (keyAt ib (2 + ext (wireLen7 (Buf.byte ib 1)))) else none
  contentLen := wireLen ib

/-- What `decodeHeader` answers once the whole header is there (R101). -/
def wireResult (ib : Buf) : DecodeResult :=
  .ok (wireHeader ib) (headerLenOf (Buf.byte ib 1)) (classOfExt (ext (wireLen7 (Buf.byte ib 1))))
    (nonmin (ext (wireLen7 (Buf.byte ib 1))) (wireLen ib))

theorem decodeHeader_of_lt_two (ib : Buf) {n : Nat} (h : n < 2) : decodeHeader ib n = .incomplete 2 := by
  rw [decodeHeader, if_pos h]

theorem decodeHeader_of_lt_headerLen {ib : Buf} {n : Nat} (h2 : 2 ≤ n) (h : n < headerLenOf (Buf.byte ib 1)) :
    decodeHeader ib n = .incomplete (headerLenOf (Buf.byte ib 1)) := by
  rw [decodeHeader, if_neg (Nat.not_lt.mpr h2), if_pos h]

theorem decodeHeader_of_headerLen_le {ib : Buf} {n : Nat} (h : headerLenOf (Buf.byte ib 1) ≤ n) :
    decodeHeader ib n = wireResult ib := by
  have h2 : ¬ n < 2 := Nat.not_lt.mpr ((two_le_headerLenOf _).trans h)
  rw [decodeHeader, if_neg h2, if_neg (Nat.not_lt.mpr h)]
  rfl

/-- `decodeHeader` is OK only on a complete header, and then says what the wire says. -/
theorem decodeHeader_eq_ok {ib : Buf} {n : Nat} {h : Header} {hl : Nat} {lc : BitVec 2} {nm : Bool}
    (heq : decodeHeader ib n = .ok h hl lc nm) :
    headerLenOf (Buf.byte ib 1) ≤ n ∧ h = wireHeader ib ∧ hl = headerLenOf (Buf.byte ib 1) ∧
      lc = classOfExt (ext (wireLen7 (Buf.byte ib 1))) ∧ nm = nonmin (ext (wireLen7 (Buf.byte ib 1))) (wireLen ib) := by
  rcases decodeHeader_cases ib n with ⟨-, hd⟩ | ⟨-, -, hd⟩ | ⟨-, hle, hd⟩ <;> rw [hd] at heq <;> cases heq
  exact ⟨hle, rfl, rfl, rfl, rfl⟩

/-- With byte 1 there, an INCOMPLETE names the header length. -/
theorem decodeHeader_eq_incomplete {ib : Buf} {n need : Nat} (h2 : 2 ≤ n) (heq : decodeHeader ib n = .incomplete need) :
    need = headerLenOf (Buf.byte ib 1) := by
  rcases decodeHeader_cases ib n with ⟨hlt, -⟩ | ⟨-, -, hd⟩ | ⟨-, -, hd⟩
  · omega
  · rw [hd] at heq
    cases heq
    rfl
  · rw [hd] at heq
    cases heq

/-- A decoded header carries a key exactly when it is masked (R11). -/
theorem wireHeader_wf (ib : Buf) : (wireHeader ib).wf := by
  cases h : wireMasked (Buf.byte ib 1) <;> simp [wireHeader, Header.wf, h]

/-! ### The bytes a decode result depends on -/

theorem wireLen_congr_of_ext {ib ib' : Buf}
    (h : ∀ k, k < 2 + ext (wireLen7 (Buf.byte ib 1)) → Buf.byte ib' k = Buf.byte ib k) : wireLen ib' = wireLen ib := by
  simp only [wireLen, h 1 (by omega)]
  rcases ext_cases (wireLen7 (Buf.byte ib 1)) with he | he | he <;> rw [he] at h ⊢
  · rfl
  · simp [h]
  · simp [h]

theorem keyAt_congr_of_lt {ib ib' : Buf} {i : Nat} (h : ∀ k, k < i + 4 → Buf.byte ib' k = Buf.byte ib k) :
    keyAt ib' i = keyAt ib i := by
  simp [keyAt, h]

/-- The result of a complete header depends on no byte past the header. -/
theorem wireResult_congr {ib ib' : Buf}
    (h : ∀ k, k < headerLenOf (Buf.byte ib 1) → Buf.byte ib' k = Buf.byte ib k) : wireResult ib' = wireResult ib := by
  have h0 : Buf.byte ib' 0 = Buf.byte ib 0 := h 0 (Nat.lt_of_lt_of_le two_pos (two_le_headerLenOf _))
  have h1 : Buf.byte ib' 1 = Buf.byte ib 1 := h 1 (two_le_headerLenOf _)
  simp only [headerLenOf] at h
  have hlen : wireLen ib' = wireLen ib := wireLen_congr_of_ext fun k hk => h k (by omega)
  simp only [wireResult, wireHeader, h0, h1, hlen]
  cases hm : wireMasked (Buf.byte ib 1) with
  | false => rfl
  | true => rw [keyAt_congr_of_lt (by simpa [hm] using h)]

/-- Bytes appended to a complete header change nothing (R103). -/
theorem decodeHeader_append {ib ib' : Buf} {n n' : Nat} (hn : n ≤ n') (h : ∀ k, k < n → Buf.byte ib' k = Buf.byte ib k)
    (hle : headerLenOf (Buf.byte ib 1) ≤ n) : decodeHeader ib' n' = decodeHeader ib n := by
  have h1 : Buf.byte ib' 1 = Buf.byte ib 1 := h 1 ((two_le_headerLenOf _).trans hle)
  rw [decodeHeader_of_headerLen_le hle, decodeHeader_of_headerLen_le (by rw [h1]; omega)]
  exact wireResult_congr fun k hk => h k (by omega)

/-! ### DECODE on the state -/

theorem decodeCmd_of_incomplete {s : State} {need : Nat}
    (h : decodeHeader s.ibuf s.ibufAvail.toNat = .incomplete need) :
    decodeCmd s = setStatus codeIncomplete (BitVec.ofNat 4 need) s := by
  simp only [decodeCmd, h]

theorem decodeCmd_of_ok {s : State} {h : Header} {hl : Nat} {lc : BitVec 2} {nm : Bool}
    (heq : decodeHeader s.ibuf s.ibufAvail.toNat = .ok h hl lc nm) :
    decodeCmd s = setStatus codeOk 0 (loadHeader h hl lc nm s) := by
  simp only [decodeCmd, heq]

/-- A DECODE that reports OK found a complete header and loaded it. -/
theorem decodeCmd_of_code_zero {s : State} (hcode : (decodeCmd s).status.code = 0) :
    ∃ h hl lc nm, decodeHeader s.ibuf s.ibufAvail.toNat = .ok h hl lc nm ∧
      decodeCmd s = setStatus codeOk 0 (loadHeader h hl lc nm s) := by
  rcases decodeCmd_cases s with ⟨need, -, hd⟩ | hok
  · rw [hd] at hcode
    exact absurd hcode (by decide : codeIncomplete ≠ 0)
  · exact hok

/-- A DECODE that reports INCOMPLETE has written CODE and NEED alone. -/
theorem decodeCmd_of_code_one {s : State} (hcode : (decodeCmd s).status.code = 1) :
    ∃ need, decodeCmd s = setStatus codeIncomplete need s := by
  rcases decodeCmd_cases s with ⟨need, -, hd⟩ | ⟨h, hl, lc, nm, -, hd⟩
  · exact ⟨_, hd⟩
  · rw [hd] at hcode
    exact absurd hcode (by decide : codeOk ≠ 1)

/-- A DECODE that ends OK leaves nothing of the CODE and NEED it found. -/
theorem decodeCmd_setStatus_of_code_zero {s : State} {c n : BitVec 4}
    (hcode : (decodeCmd (setStatus c n s)).status.code = 0) : decodeCmd (setStatus c n s) = decodeCmd s := by
  obtain ⟨h, hl, lc, nm, heq, hd⟩ := decodeCmd_of_code_zero hcode
  exact hd.trans (decodeCmd_of_ok (s := s) heq).symm

/-- What DECODE leaves alone, INCOMPLETE or OK. -/
theorem decodeCmd_frame (s : State) :
    SameIbuf s (decodeCmd s) ∧ SameObuf s (decodeCmd s) ∧ SameRange s (decodeCmd s) ∧ SamePbuf s (decodeCmd s) ∧
      SameHost s (decodeCmd s) := by
  rcases decodeCmd_cases s with ⟨need, -, hd⟩ | ⟨h, hl, lc, nm, -, hd⟩ <;> rw [hd] <;>
    exact ⟨⟨rfl, rfl⟩, ⟨rfl, rfl⟩, ⟨rfl, rfl⟩, pbufByte_congr rfl rfl, ⟨rfl, rfl, rfl, rfl⟩⟩

/-! ### The key -/

/-- Lane j of a key read from a buffer is its byte j. -/
theorem lane_wordOfKey_keyAt (ib : Buf) (i : Nat) {j : Nat} (hj : j < 4) :
    lane (wordOfKey (some (keyAt ib i))) j = Buf.byte ib (i + j) := by
  obtain ⟨h0, h1, h2, h3⟩ :=
    lane_ofLanes (Buf.byte ib i) (Buf.byte ib (i + 1)) (Buf.byte ib (i + 2)) (Buf.byte ib (i + 3))
  match j with
  | 0 => exact h0
  | 1 => exact h1
  | 2 => exact h2
  | 3 => exact h3

/-- MASK_KEY after DECODE, byte by byte (R102). -/
theorem wordOfKey_mask_wireHeader (ib : Buf) :
    wordOfKey (wireHeader ib).mask =
      if wireMasked (Buf.byte ib 1) then
        Buf.byte ib (5 + ext (wireLen7 (Buf.byte ib 1))) ++ Buf.byte ib (4 + ext (wireLen7 (Buf.byte ib 1)))
          ++ Buf.byte ib (3 + ext (wireLen7 (Buf.byte ib 1))) ++ Buf.byte ib (2 + ext (wireLen7 (Buf.byte ib 1)))
      else 0 := by
  generalize he : ext (wireLen7 (Buf.byte ib 1)) = e
  simp only [wireHeader, he]
  split
  · rw [show 5 + e = 2 + e + 3 by omega, show 4 + e = 2 + e + 2 by omega, show 3 + e = 2 + e + 1 by omega]
    rfl
  · rfl

/-! ### The flags -/

theorem nonmin_iff (e : Nat) (len : BitVec 64) :
    nonmin e len = true ↔ (e = 2 ∧ len.toNat < 126) ∨ (e = 8 ∧ len.toNat < 65536) := by
  simp [nonmin]

theorem opcUnknown_headerFlags_iff (nm : Bool) (len : BitVec 64) (op : BitVec 4) :
    (headerFlags nm len op).opcUnknown = true ↔
      ¬ (op = 0x0 ∨ op = 0x1 ∨ op = 0x2 ∨ op = 0x8 ∨ op = 0x9 ∨ op = 0xA) := by
  rw [← (opcodePredicates op).2, headerFlags, Bool.not_eq_true, Bool.not_eq_true']

theorem opcControl_headerFlags_iff (nm : Bool) (len : BitVec 64) (op : BitVec 4) :
    (headerFlags nm len op).opcControl = true ↔ op = 0x8 ∨ op = 0x9 ∨ op = 0xA :=
  (opcodePredicates op).1

/-! ### The width on the wire and the width ENCODE selects -/

theorem lenClass_eq_zero_iff (len : BitVec 64) : lenClass len = 0 ↔ len.toNat ≤ 125 := by
  rw [lenClass]
  split_ifs <;> simp <;> omega

theorem lenClass_eq_one_iff (len : BitVec 64) : lenClass len = 1 ↔ 126 ≤ len.toNat ∧ len.toNat ≤ 65535 := by
  rw [lenClass]
  split_ifs <;> simp <;> omega

theorem lenClass_eq_two_iff (len : BitVec 64) : lenClass len = 2 ↔ 65536 ≤ len.toNat := by
  rw [lenClass]
  split_ifs <;> simp <;> omega

/-- Each width on the wire holds only lengths up to its own bound. -/
theorem wireLen_toNat_le (ib : Buf) :
    (ext (wireLen7 (Buf.byte ib 1)) = 0 → (wireLen ib).toNat ≤ 125) ∧
      (ext (wireLen7 (Buf.byte ib 1)) = 2 → (wireLen ib).toNat ≤ 65535) := by
  rw [wireLen_toNat]
  refine ⟨fun he => ?_, fun he => ?_⟩
  · rw [if_pos he]
    rw [ext_eq] at he
    split_ifs at he
    omega
  · rw [he, if_neg (by decide), if_pos rfl]
    omega

/-- NONMIN on the wire says whether the width is wider than the one ENCODE selects (R87, R110). -/
theorem nonmin_wireLen_eq_false_iff (ib : Buf) :
    nonmin (ext (wireLen7 (Buf.byte ib 1))) (wireLen ib) = false ↔
      classOfExt (ext (wireLen7 (Buf.byte ib 1))) = lenClass (wireLen ib) := by
  obtain ⟨h0, h2⟩ := wireLen_toNat_le ib
  rw [← Bool.not_eq_true, nonmin_iff]
  rcases ext_cases (wireLen7 (Buf.byte ib 1)) with he | he | he <;> rw [he] at h0 h2 ⊢
  · rw [show classOfExt 0 = 0 from rfl, eq_comm (a := (0 : BitVec 2)), lenClass_eq_zero_iff]
    omega
  · rw [show classOfExt 2 = 1 from rfl, eq_comm (a := (1 : BitVec 2)), lenClass_eq_one_iff]
    omega
  · rw [show classOfExt 8 = 2 from rfl, eq_comm (a := (2 : BitVec 2)), lenClass_eq_two_iff]
    omega

/-- The class of a width names it. -/
theorem extOfClass_classOfExt_ext (l : BitVec 7) : extOfClass (classOfExt (ext l)) = ext l := by
  rcases ext_cases l with he | he | he <;> rw [he] <;> rfl

/-! ### The statements -/

/-- Settles O21: DECODE by the three cases of the count, with the wire fields as numbers. -/
theorem decodeEffect : Obligations.DecodeEffect := by
  unfold Obligations.DecodeEffect
  refine ⟨by decide, fun s => ?_⟩
  intro n b0 b1 len7 e hl
  have he : e = ext (wireLen7 b1) := (ext_eq _).symm
  have hhl : hl = headerLenOf b1 := by rw [headerLenOf, ← he]; rfl
  rw [hhl]
  refine ⟨fun h => ?_, fun h2 h => ?_, fun _ h => ⟨_, exec_decode s, ?_⟩⟩
  · rw [exec_decode, decodeCmd_of_incomplete (decodeHeader_of_lt_two _ h)]
    rfl
  · rw [exec_decode, decodeCmd_of_incomplete (decodeHeader_of_lt_headerLen h2 h)]
    rfl
  · have hframe := decodeCmd_frame s
    rw [decodeCmd_of_ok (decodeHeader_of_headerLen_le h)] at hframe ⊢
    simp only [he]
    exact ⟨rfl, rfl, rfl, wireLen_toNat s.ibuf, wordOfKey_mask_wireHeader s.ibuf, toNat_ofNat_headerLenOf b1, rfl, rfl,
      rfl, rfl, nonmin_iff _ _, rfl, opcUnknown_headerFlags_iff _ _ _, opcControl_headerFlags_iff _ _ _, hframe⟩

/-- Settles O23: the key of a masked header begins at byte 2 + ext, which is 4 before the header's end. -/
theorem decodedKeyIsTheEndOfTheHeader : Obligations.DecodedKeyIsTheEndOfTheHeader := by
  unfold Obligations.DecodedKeyIsTheEndOfTheHeader
  intro s t ht hcode
  rw [exec_decode, Host.Outcome.next.injEq] at ht
  subst ht
  obtain ⟨h, hl, lc, nm, heq, hd⟩ := decodeCmd_of_code_zero hcode
  obtain ⟨-, rfl, rfl, -, -⟩ := decodeHeader_eq_ok heq
  rw [hd]
  simp only [setStatus_masked, setStatus_maskKey, setStatus_headerLen, setStatus_maskPhase, loadHeader_masked,
    loadHeader_maskKey, loadHeader_headerLen, loadHeader_maskPhase, toNat_ofNat_headerLenOf, wireHeader, and_true]
  refine ⟨fun hm j hj => ?_, fun hm => ?_⟩
  · rw [if_pos hm, headerLenOf, if_pos hm, Nat.add_sub_cancel]
    exact lane_wordOfKey_keyAt _ _ hj
  · rw [hm]
    rfl

/-- Settles O26: the result depends on the header's bytes alone, NEED on byte 1 alone, and an INCOMPLETE DECODE leaves
only a CODE and NEED that the first OK overwrites. -/
theorem decodeIsResumable : Obligations.DecodeIsResumable := by
  unfold Obligations.DecodeIsResumable
  refine ⟨fun ib ib' n n' hn _ h => ⟨fun hd hl lc nm heq => ?_, fun h2 need heq => ?_, fun h2 => ?_⟩,
    fun s t ht hcode => ?_⟩
  · rw [decodeHeader_append hn h (decodeHeader_eq_ok heq).1, heq]
  · have h1 : Buf.byte ib' 1 = Buf.byte ib 1 := h 1 h2
    rw [decodeHeader_eq_incomplete h2 heq, ← h1]
    exact ⟨rfl, fun hle => ⟨_, _, _, _, decodeHeader_of_headerLen_le hle⟩, decodeHeader_of_lt_headerLen (h2.trans hn)⟩
  · refine ⟨decodeHeader_of_lt_two ib h2, decodeHeader_of_lt_two ib', fun h2' => ?_⟩
    by_cases hle : headerLenOf (Buf.byte ib' 1) ≤ n'
    · exact .inl ⟨_, _, _, _, decodeHeader_of_headerLen_le hle⟩
    · have hcases := headerLenOf_cases (Buf.byte ib' 1)
      exact .inr ⟨decodeHeader_of_lt_headerLen h2' (by omega), by omega⟩
  · rw [exec_decode, Host.Outcome.next.injEq] at ht
    subst ht
    obtain ⟨need, hd⟩ := decodeCmd_of_code_one hcode
    rw [hd]
    refine ⟨rfl, fun ib av u hu hcode' => ?_⟩
    rw [exec_decode, Host.Outcome.next.injEq] at hu ⊢
    subst hu
    exact (decodeCmd_setStatus_of_code_zero (s := { s with ibuf := ib, ibufAvail := av }) hcode').symm

/-- Settles O28: the wire's class names the wire's width, so where it is ENCODE's class the lengths agree. -/
theorem nonminSaysWhetherEncodeAgrees : Obligations.NonminSaysWhetherEncodeAgrees := by
  unfold Obligations.NonminSaysWhetherEncodeAgrees
  intro ib n h hl lc nm heq
  obtain ⟨-, rfl, rfl, rfl, rfl⟩ := decodeHeader_eq_ok heq
  have hiff := nonmin_wireLen_eq_false_iff ib
  refine ⟨hiff, fun hnm => ⟨?_, hiff.mp hnm⟩⟩
  rw [encodeHeader_length _ (wireHeader_wf ib), wireHeader, ← hiff.mp hnm, extOfClass_classOfExt_ext, headerLenOf]

end Sys2Proof.Machine
end

section
/-! PROOFS. ENCODE: the bytes in OBUF, the registers and the frame (spec/41_header_codec.md R106, R107, R109). -/
namespace Sys2Proof.Machine

/-! ### ENCODE on the state -/

@[simp] theorem hdrOf_contentLen (s : State) : (hdrOf s).contentLen = s.contentLen := rfl

/-- What ENCODE leaves alone, whatever the header's bytes (R107). -/
theorem encodeCmd_frame (s : State) :
    SameHeader s (encodeCmd s) ∧ SameIbuf s (encodeCmd s) ∧ SameRange s (encodeCmd s) ∧ SamePbuf s (encodeCmd s) ∧
      SameHost s (encodeCmd s) := by
  rw [encodeCmd]
  generalize encodeHeader (hdrOf s) = bytes
  exact ⟨⟨rfl, rfl, rfl, rfl, rfl⟩, ⟨rfl, rfl⟩, ⟨rfl, rfl⟩, pbufByte_congr rfl rfl, ⟨rfl, rfl, rfl, rfl⟩⟩

/-- The length ENCODE computes for the header the registers hold (R106). -/
theorem encodeHeader_hdrOf_length (s : State) :
    (encodeHeader (hdrOf s)).length = 2 + extOfClass (lenClass s.contentLen) + if s.masked then 4 else 0 :=
  encodeHeader_length _ (hdrOf_wf s)

/-- An encoded length fits OBUF_LEN and HEADER_LEN. -/
theorem toNat_ofNat_encodeHeader_length {h : Header} (hw : h.wf) :
    (BitVec.ofNat 5 (encodeHeader h).length).toNat = (encodeHeader h).length ∧
      (BitVec.ofNat 4 (encodeHeader h).length).toNat = (encodeHeader h).length := by
  rcases encodeHeader_length_cases h hw with hl | hl | hl | hl | hl | hl <;> rw [hl] <;> exact ⟨rfl, rfl⟩

/-! ### OBUF after ENCODE -/

theorem byte_obuf_encodeCmd (s : State) {k : Nat} (hk : k < 16) :
    Buf.byte (encodeCmd s).obuf k = (encodeHeader (hdrOf s))[k]?.getD 0 := by
  rw [encodeCmd, setStatus_obuf, storeHeader_obuf, Buf.byte_ofBytes _ _ hk]

theorem byte_one_obuf_encodeCmd (s : State) :
    Buf.byte (encodeCmd s).obuf 1 = BitVec.ofBool s.masked ++ encodedLen7 s.contentLen := by
  rw [byte_obuf_encodeCmd s (by decide), encodeHeader_getElem?]
  rfl

/-- Byte k of the extended length in OBUF, the most significant first (R106). -/
theorem byte_length_obuf_encodeCmd (s : State) {k : Nat} (hk : k < extOfClass (lenClass s.contentLen)) :
    (Buf.byte (encodeCmd s).obuf (2 + k)).toNat =
      s.contentLen.toNat / 256 ^ (extOfClass (lenClass s.contentLen) - 1 - k) % 256 := by
  have he := extOfClass_lenClass s.contentLen
  rw [byte_obuf_encodeCmd s (by split_ifs at he <;> omega), encodeHeader_getElem?, hdrOf_contentLen, if_neg (by omega),
    if_neg (by omega), if_pos (by omega), Option.getD_some, toNat_extract_byte, Nat.add_sub_cancel_left]

/-- Byte j of the key in OBUF (R106). -/
theorem byte_key_obuf_encodeCmd {s : State} (hm : s.masked = true) {j : Nat} (hj : j < 4) :
    Buf.byte (encodeCmd s).obuf (2 + extOfClass (lenClass s.contentLen) + j) = lane s.maskKey j := by
  have he := extOfClass_lenClass s.contentLen
  rw [byte_obuf_encodeCmd s (by split_ifs at he <;> omega), encodeHeader_getElem?, hdrOf_contentLen, if_neg (by omega),
    if_neg (by omega), if_neg (by omega), keyBytes_hdrOf, if_pos hm, Nat.sub_sub, Nat.add_sub_cancel_left]
  match j with
  | 0 | 1 | 2 | 3 => rfl

/-- OBUF is 0 past the header. -/
theorem byte_obuf_encodeCmd_of_length_le {s : State} {k : Nat} (h : (encodeHeader (hdrOf s)).length ≤ k) (hk : k < 16) :
    Buf.byte (encodeCmd s).obuf k = 0 := by
  rw [byte_obuf_encodeCmd s hk, List.getElem?_eq_none h, Option.getD_none]

/-! ### The statements -/

/-- Settles O30: the width, `len7` and the length as numbers, then OBUF part by part. -/
theorem encodeEffect : Obligations.EncodeEffect := by
  unfold Obligations.EncodeEffect
  refine ⟨by decide, fun s => ?_⟩
  intro len e len7 hl
  have he : e = extOfClass (lenClass s.contentLen) := (extOfClass_lenClass _).symm
  have hlen7 : len7 = (encodedLen7 s.contentLen).toNat := (encodedLen7_toNat _).symm
  have hhl : hl = (encodeHeader (hdrOf s)).length := by rw [encodeHeader_hdrOf_length, ← he]
  rw [he, hlen7, hhl]
  obtain ⟨hobufLen, hheaderLen⟩ := toNat_ofNat_encodeHeader_length (hdrOf_wf s)
  refine ⟨_, exec_encode s, ?_, ?_, fun k hk => byte_length_obuf_encodeCmd s hk,
    fun hm j hj => byte_key_obuf_encodeCmd hm hj, fun k hle hk => byte_obuf_encodeCmd_of_length_le hle hk, hobufLen,
    hheaderLen, rfl, rfl, rfl, rfl, rfl, rfl, opcUnknown_headerFlags_iff _ _ _, opcControl_headerFlags_iff _ _ _,
    encodeCmd_frame s⟩
  · rw [byte_zero_obuf_encodeCmd]
    generalize s.fin = fin, s.opcode = op
    revert fin op
    decide
  · rw [byte_one_obuf_encodeCmd, toNat_append_eq_add]
    cases s.masked <;> rfl

/-- Settles O32: the table's eight lengths, evaluated. -/
theorem lengthWidthTable : Obligations.LengthWidthTable := by
  unfold Obligations.LengthWidthTable
  decide

end Sys2Proof.Machine
end

section
/-! PROOFS. MASK: the pure masking function, the bytes and the frame of the command, masking twice and masking in pieces
(spec/42_mask_engine.md R121 to R124, R126). -/
namespace Sys2Proof.Machine

/-! ### The pure masking function -/

/-- The key index, reduced mod 4 by its width (R121). -/
theorem toNat_add_ofNat_two (p : BitVec 2) (n : Nat) : (p + BitVec.ofNat 2 n).toNat = (p.toNat + n) % 4 := by
  simp only [BitVec.toNat_add, BitVec.toNat_ofNat]
  omega

/-- Going on from a phase by m and then by n bytes is going on by m + n. -/
theorem add_ofNat_two_add (p : BitVec 2) (m n : Nat) :
    p + BitVec.ofNat 2 m + BitVec.ofNat 2 n = p + BitVec.ofNat 2 (m + n) := by
  rw [BitVec.add_assoc, ← BitVec.ofNat_add]

theorem xorMask_xorMask (k : MaskKey) (p : BitVec 2) (bs : List Byte) : xorMask k p (xorMask k p bs) = bs := by
  induction bs generalizing p with
  | nil => rfl
  | cons b bs ih => rw [xorMask, xorMask, ih, BitVec.xor_assoc, BitVec.xor_self, BitVec.xor_zero]

theorem xorMask_append (k : MaskKey) (p : BitVec 2) (as bs : List Byte) :
    xorMask k p (as ++ bs) = xorMask k p as ++ xorMask k (p + BitVec.ofNat 2 as.length) bs := by
  induction as generalizing p with
  | nil => simp [xorMask]
  | cons a as ih =>
    have hphase : p + 1 + BitVec.ofNat 2 as.length = p + BitVec.ofNat 2 (a :: as).length := by
      rw [List.length_cons, Nat.add_comm]
      exact add_ofNat_two_add p 1 as.length
    rw [List.cons_append, xorMask, ih, hphase, xorMask, List.cons_append]

/-! ### One byte of PBUF under a MASK -/

/-- What a MASK of the `n` bytes from `start` on makes of the byte `b` at offset `a` (R122). -/
def maskByteAt (k : MaskKey) (p : BitVec 2) (start n a : Nat) (b : Byte) : Byte :=
  if start ≤ a ∧ a < start + n then b ^^^ k.at (p + BitVec.ofNat 2 (a - start)) else b

section
variable {k : MaskKey} {p : BitVec 2} {start n a : Nat} {b : Byte}

theorem maskByteAt_of_mem (h : start ≤ a ∧ a < start + n) :
    maskByteAt k p start n a b = b ^^^ k.at (p + BitVec.ofNat 2 (a - start)) := if_pos h

theorem maskByteAt_of_outside (h : a < start ∨ start + n ≤ a) : maskByteAt k p start n a b = b := if_neg (by omega)

theorem maskByteAt_maskByteAt : maskByteAt k p start n a (maskByteAt k p start n a b) = b := by
  by_cases h : start ≤ a ∧ a < start + n
  · rw [maskByteAt_of_mem h, maskByteAt_of_mem h, BitVec.xor_assoc, BitVec.xor_self, BitVec.xor_zero]
  · have hout : a < start ∨ start + n ≤ a := by omega
    rw [maskByteAt_of_outside hout, maskByteAt_of_outside hout]

/-- Masking `m` bytes and then the `n` bytes after them, the phase carried, masks the m + n bytes (R124). -/
theorem maskByteAt_add (m : Nat) :
    maskByteAt k (p + BitVec.ofNat 2 m) (start + m) n a (maskByteAt k p start m a b) =
      maskByteAt k p start (m + n) a b := by
  by_cases hfirst : start ≤ a ∧ a < start + m
  · rw [maskByteAt_of_outside (by omega), maskByteAt_of_mem hfirst, maskByteAt_of_mem (by omega)]
  · rw [maskByteAt_of_outside (n := m) (by omega)]
    by_cases hsecond : start + m ≤ a ∧ a < start + m + n
    · rw [maskByteAt_of_mem hsecond, maskByteAt_of_mem (by omega), add_ofNat_two_add,
        show m + (a - (start + m)) = a - start by omega]
    · rw [maskByteAt_of_outside (by omega), maskByteAt_of_outside (by omega)]

end

/-! ### MASK on the state -/

/-- What MASK leaves alone, whichever way it ends (R126). -/
theorem maskCmd_frame (s : State) :
    SameHeader s (maskCmd s) ∧ SameInfo s (maskCmd s) ∧ SameIbuf s (maskCmd s) ∧ SameObuf s (maskCmd s) ∧
      SameRange s (maskCmd s) ∧ (maskCmd s).status.flags = s.status.flags ∧ SameHost s (maskCmd s) := by
  rcases maskCmd_cases s with ⟨-, hm⟩ | ⟨-, hm⟩ <;> rw [hm] <;>
    exact ⟨⟨rfl, rfl, rfl, rfl, rfl⟩, ⟨rfl, rfl⟩, ⟨rfl, rfl⟩, ⟨rfl, rfl⟩, ⟨rfl, rfl⟩, rfl, ⟨rfl, rfl, rfl, rfl⟩⟩

@[simp] theorem maskCmd_maskKey (s : State) : (maskCmd s).maskKey = s.maskKey := by
  obtain ⟨⟨-, -, -, -, hkey⟩, -⟩ := maskCmd_frame s
  exact hkey

@[simp] theorem maskCmd_cfg (s : State) : (maskCmd s).cfg = s.cfg := by
  obtain ⟨-, -, -, -, -, -, hcfg, -⟩ := maskCmd_frame s
  exact hcfg

@[simp] theorem maskCmd_pStart (s : State) : (maskCmd s).pStart = s.pStart := by
  obtain ⟨-, -, -, -, ⟨hstart, -⟩, -⟩ := maskCmd_frame s
  exact hstart

@[simp] theorem maskCmd_pCount (s : State) : (maskCmd s).pCount = s.pCount := by
  obtain ⟨-, -, -, -, ⟨-, hcount⟩, -⟩ := maskCmd_frame s
  exact hcount

/-- A range that does not lie inside PBUF is refused as a whole (R122). -/
theorem maskCmd_of_range {s : State} (h : s.cfg.pbufSize < s.pStart.toNat + s.pCount.toNat) :
    maskCmd s = setStatus codeRange 0 s := by
  rcases maskCmd_cases s with ⟨-, hm⟩ | ⟨hfit, -⟩
  · exact hm
  · omega

/-- A range inside PBUF: the range XORed, the phase advanced and OK (R122). -/
theorem maskCmd_of_fits {s : State} (h : s.pStart.toNat + s.pCount.toNat ≤ s.cfg.pbufSize) :
    maskCmd s = setStatus codeOk 0
      { writePbuf s.pStart.toNat
          (xorMask (keyOfWord s.maskKey) s.maskPhase (pbufBytes s s.pStart.toNat s.pCount.toNat)) s with
        maskPhase := BitVec.ofNat 2 (s.maskPhase.toNat + s.pCount.toNat) } := by
  rcases maskCmd_cases s with ⟨hrange, -⟩ | ⟨-, hm⟩
  · omega
  · exact hm

theorem maskCmd_maskPhase {s : State} (h : s.pStart.toNat + s.pCount.toNat ≤ s.cfg.pbufSize) :
    (maskCmd s).maskPhase = s.maskPhase + BitVec.ofNat 2 s.pCount.toNat := by
  rw [maskCmd_of_fits h, setStatus_maskPhase, BitVec.ofNat_add, BitVec.ofNat_toNat, BitVec.setWidth_eq]

theorem pbufByte_maskCmd {s : State} (h : s.pStart.toNat + s.pCount.toNat ≤ s.cfg.pbufSize) (a : Nat) :
    pbufByte (maskCmd s) a =
      maskByteAt (keyOfWord s.maskKey) s.maskPhase s.pStart.toNat s.pCount.toNat a (pbufByte s a) := by
  have hwrite : pbufByte (maskCmd s) a = pbufByte (writePbuf s.pStart.toNat
      (xorMask (keyOfWord s.maskKey) s.maskPhase (pbufBytes s s.pStart.toNat s.pCount.toNat)) s) a := by
    rw [maskCmd_of_fits h]
    exact pbufByte_congr rfl rfl a
  rw [hwrite, pbufByte_writePbuf, xorMask_length, pbufBytes_length, maskByteAt]
  split
  · next hmem =>
    have hj : a - s.pStart.toNat < s.pCount.toNat := by omega
    rw [xorMask_getD _ _ _ _ (by rwa [pbufBytes_length]), pbufBytes_getElem? _ _ _ _ hj, Option.getD_some,
      Nat.add_sub_cancel' hmem.1]
  · rfl

theorem pbufByte_maskCmd_of_outside {s : State} {a : Nat}
    (ha : a < s.pStart.toNat ∨ s.pStart.toNat + s.pCount.toNat ≤ a) : pbufByte (maskCmd s) a = pbufByte s a := by
  rcases maskCmd_cases s with ⟨-, hm⟩ | ⟨hfit, -⟩
  · rw [hm]
    exact pbufByte_congr rfl rfl a
  · rw [pbufByte_maskCmd hfit, maskByteAt_of_outside ha]

/-! ### MASKs one after another -/

/-- A second MASK from the first phase undoes the first, whichever way it ends (R123). -/
theorem samePbuf_maskCmd_maskCmd (s : State) : SamePbuf s (maskCmd { maskCmd s with maskPhase := s.maskPhase }) := by
  intro a
  have hphase : pbufByte { maskCmd s with maskPhase := s.maskPhase } a = pbufByte (maskCmd s) a :=
    pbufByte_congr rfl rfl a
  by_cases hfit : s.pStart.toNat + s.pCount.toNat ≤ s.cfg.pbufSize
  · rw [pbufByte_maskCmd (by simpa using hfit), hphase, pbufByte_maskCmd hfit]
    simp only [maskCmd_maskKey, maskCmd_pStart, maskCmd_pCount, maskByteAt_maskByteAt]
  · rw [maskCmd_of_range (by simpa using hfit), maskCmd_of_range (s := s) (by omega)]
    exact pbufByte_congr rfl rfl a

theorem pbufSize_lt_of_legal {c : Config} (h : c.legal) : c.pbufSize < 2 ^ 32 := by
  obtain ⟨-, -, hmax⟩ := h
  omega

/-- MASKs over consecutive ranges of `cs` bytes each mask the whole range, the phase advanced by its length (R124).
PBUF ends below 2^32, so P_START does not wrap on the way. -/
theorem pbufByte_and_maskPhase_of_maskChunks {cs : List Word} {s u : State} (hcfg : s.cfg.legal)
    (hfit : s.pStart.toNat + (cs.map BitVec.toNat).sum ≤ s.cfg.pbufSize) (h : MaskChunks cs s u) :
    (∀ a, pbufByte u a = maskByteAt (keyOfWord s.maskKey) s.maskPhase s.pStart.toNat (cs.map BitVec.toNat).sum a
      (pbufByte s a)) ∧ u.maskPhase = s.maskPhase + BitVec.ofNat 2 (cs.map BitVec.toNat).sum := by
  induction cs generalizing s with
  | nil =>
    obtain rfl : u = s := h
    exact ⟨fun a => (maskByteAt_of_outside (by simp; omega)).symm, by simp⟩
  | cons c cs ih =>
    obtain ⟨t, ht, hrest⟩ := h
    rw [exec_mask, Host.Outcome.next.injEq] at ht
    subst ht
    rw [List.map_cons, List.sum_cons] at hfit ⊢
    have hmax := pbufSize_lt_of_legal hcfg
    have hstart : (s.pStart + c).toNat = s.pStart.toNat + c.toNat := BitVec.toNat_add_of_lt (by omega)
    have hc : s.pStart.toNat + c.toNat ≤ s.cfg.pbufSize := by omega
    have hphase : (maskCmd { s with pCount := c }).maskPhase = s.maskPhase + BitVec.ofNat 2 c.toNat :=
      maskCmd_maskPhase (s := { s with pCount := c }) hc
    obtain ⟨hbytes, hend⟩ := ih (by simpa using hcfg) (by simpa [hstart, Nat.add_assoc] using hfit) hrest
    refine ⟨fun a => ?_, hend.trans (by rw [hphase, add_ofNat_two_add])⟩
    have hfirst : pbufByte (maskCmd { s with pCount := c }) a =
        maskByteAt (keyOfWord s.maskKey) s.maskPhase s.pStart.toNat c.toNat a (pbufByte s a) :=
      pbufByte_maskCmd (s := { s with pCount := c }) hc a
    rw [← maskByteAt_add, ← hfirst, ← hphase, ← hstart, hbytes, maskCmd_maskKey]
    rfl

/-! ### The statements -/

/-- Settles O41: XOR is its own inverse, byte by byte, and a refused range is refused twice. -/
theorem maskingTwiceRestoresTheBytes : Obligations.MaskingTwiceRestoresTheBytes := by
  unfold Obligations.MaskingTwiceRestoresTheBytes
  refine ⟨xorMask_xorMask, fun s t u ht hu => ?_⟩
  rw [exec_mask, Host.Outcome.next.injEq] at ht hu
  subst ht hu
  exact samePbuf_maskCmd_maskCmd s

/-- Settles O42: by induction on the chunks, they and the one MASK make the same of every byte. -/
theorem maskingInChunksIsMaskingAtOnce : Obligations.MaskingInChunksIsMaskingAtOnce := by
  unfold Obligations.MaskingInChunksIsMaskingAtOnce
  refine ⟨xorMask_append, fun cs s u v hcfg hfit hu hv => ?_⟩
  obtain ⟨hbytes, hphase⟩ := pbufByte_and_maskPhase_of_maskChunks hcfg hfit hu
  rw [exec_mask, Host.Outcome.next.injEq] at hv
  subst hv
  generalize (cs.map BitVec.toNat).sum = n at *
  have hmax := pbufSize_lt_of_legal hcfg
  have hn : (BitVec.ofNat 32 n).toNat = n := Nat.mod_eq_of_lt (by omega)
  have hone : s.pStart.toNat + (BitVec.ofNat 32 n).toNat ≤ s.cfg.pbufSize := by rwa [hn]
  refine ⟨fun a => ?_, ?_⟩
  · rw [hbytes, pbufByte_maskCmd (s := { s with pCount := BitVec.ofNat 32 n }) hone, hn]
    rfl
  · rw [hphase, maskCmd_maskPhase (s := { s with pCount := BitVec.ofNat 32 n }) hone, hn]

/-- Settles O37: the key's byte at a phase is a lane of the key word. -/
theorem xorMaskBytes : Obligations.XorMaskBytes := by
  unfold Obligations.XorMaskBytes
  refine fun k p bytes => ⟨xorMask_length _ p bytes, fun j hj => ?_⟩
  rw [xorMask_getD _ p bytes j hj, keyOfWord_at, toNat_add_ofNat_two, lane]

/-- Settles O38: the two cases of the range check. -/
theorem maskEffect : Obligations.MaskEffect := by
  unfold Obligations.MaskEffect
  refine ⟨by decide, fun s => ⟨fun hrange => ?_, fun hfit => ?_⟩⟩
  · rw [exec_mask, maskCmd_of_range hrange]
    rfl
  · obtain ⟨hheader, hinfo, hibuf, hobuf, hrange, hflags, hhost⟩ := maskCmd_frame s
    have hstatus : (maskCmd s).status = { s.status with code := codeOk, need := 0 } := by
      rw [maskCmd_of_fits hfit, setStatus_status]
      rfl
    refine ⟨_, exec_mask s, fun j hj => ?_, fun a ha => pbufByte_maskCmd_of_outside ha, ?_,
      congrArg Status.code hstatus, congrArg Status.need hstatus, hflags, hheader, hinfo, hibuf, hobuf, hrange, hhost⟩
    · rw [pbufByte_maskCmd hfit, maskByteAt_of_mem (by omega), Nat.add_sub_cancel_left, keyOfWord_at,
        toNat_add_ofNat_two, lane]
    · rw [maskCmd_maskPhase hfit, toNat_add_ofNat_two]

/-- Settles O39: the frame, and PBUF outside the range, whichever way MASK ends. -/
theorem maskFootprint : Obligations.MaskFootprint := by
  unfold Obligations.MaskFootprint
  intro s t ht
  rw [exec_mask, Host.Outcome.next.injEq] at ht
  subst ht
  exact ⟨fun a ha => pbufByte_maskCmd_of_outside ha, maskCmd_frame s⟩

end Sys2Proof.Machine
end

section
/-! PROOFS. The control commands: NOP, SRESET and the reserved words (spec/43_control.md R130, R131, R132). -/
namespace Sys2Proof

/-- A command that is none of the five is one of the reserved rows (R74). -/
theorem Instr.isReserved_of_ne {i : Instr} (hnop : i ≠ .nop) (hdecode : i ≠ .decode) (hencode : i ≠ .encode)
    (hmask : i ≠ .mask) (hsreset : i ≠ .sreset) : i.isReserved = true := by
  cases i with
  | nop | decode | encode | mask | sreset => contradiction
  | reserved4to7 | reserved8toB | reservedCtoD | reservedE | reservedRsvd => rfl

end Sys2Proof

namespace Sys2Proof.Machine

/-- Clearing again changes nothing: what it writes does not depend on the state. -/
@[simp] theorem clearAllButPbuf_clearAllButPbuf (s : State) :
    clearAllButPbuf (clearAllButPbuf s) = clearAllButPbuf s := rfl

/-- SRESET leaves the parameters and the host's side alone. -/
theorem sameHost_clearAllButPbuf (s : State) : SameHost s (clearAllButPbuf s) :=
  ⟨clearAllButPbuf_cfg s, clearAllButPbuf_powerOns s, clearAllButPbuf_pending s, clearAllButPbuf_observed s⟩

/-! ### The statements -/

/-- Settles O19: a word of none of the five commands decodes to a reserved row, and each of these is `setStatus`. -/
theorem reservedWordReportsBadCmd : Obligations.ReservedWordReportsBadCmd := by
  unfold Obligations.ReservedWordReportsBadCmd
  intro w s hnop hdecode hencode hmask hsreset
  obtain ⟨nop_iff, decode_iff, encode_iff, mask_iff, sreset_iff, -⟩ := everyWordSelectsExactlyOneCommand w
  have hres : (decode w).isReserved = true :=
    Instr.isReserved_of_ne (mt nop_iff.mp hnop) (mt decode_iff.mp hdecode) (mt encode_iff.mp hencode)
      (mt mask_iff.mp hmask) (mt sreset_iff.mp hsreset)
  rw [exec_of_isReserved _ s hres]
  rfl

/-- Settles O17: word 0 matches the table's first row, and NOP answers the state it is given. -/
theorem nopChangesNothing : Obligations.NopChangesNothing := by
  unfold Obligations.NopChangesNothing
  exact ⟨by decide, exec_nop⟩

/-- Settles O18: SRESET is `clearAllButPbuf`, which is idempotent. -/
theorem sresetClearsAllButPbuf : Obligations.SresetClearsAllButPbuf := by
  unfold Obligations.SresetClearsAllButPbuf
  refine ⟨by decide, fun s => ⟨clearAllButPbuf s, exec_sreset s, registersAtReset_clearAllButPbuf s,
    samePbuf_clearAllButPbuf s, sameHost_clearAllButPbuf s, ?_⟩⟩
  rw [exec_sreset, clearAllButPbuf_clearAllButPbuf]

end Sys2Proof.Machine
end

section
/-! PROOFS. Errors and totality: every access and command answers a next state, and an error code marks a command
that wrote CODE and NEED alone (spec/60_exceptions.md R140, R150). -/
namespace Sys2Proof.Machine

/-! ### Every operation answers a next state -/

/-- No arm of `exec` faults or refuses (R150). -/
theorem exec_total (i : Instr) (s : State) : ∃ t, exec i s = .next t := by
  by_cases hres : i.isReserved = true
  · exact ⟨_, exec_of_isReserved i s hres⟩
  · cases i with
    | nop => exact ⟨s, exec_nop s⟩
    | decode => exact ⟨_, exec_decode s⟩
    | encode => exact ⟨_, exec_encode s⟩
    | mask => exact ⟨_, exec_mask s⟩
    | sreset => exact ⟨_, exec_sreset s⟩
    | reserved4to7 | reserved8toB | reservedCtoD | reservedE | reservedRsvd => exact absurd rfl hres

/-- A write runs a command at CMD and stores elsewhere; reads and resets are next states outright. -/
theorem performOp_total (op : HostOp) (s : State) : ∃ t, performOp op s = .next t := by
  cases op with
  | read a => exact ⟨_, rfl⟩
  | write a w =>
    by_cases ha : a = cmdAddr
    · obtain ⟨t, ht⟩ := exec_total (decode w) s
      exact ⟨t, by rw [ha, performOp_write_cmd, ht]⟩
    · exact ⟨_, performOp_write s a w _ rfl (mt (target_eq_cmd s.cfg a).mp ha)⟩
  | powerOnReset => exact ⟨_, performOp_powerOnReset s⟩

theorem step_total (s : State) : ∃ t, step s = .next t := by
  cases hp : s.pending with
  | nil => exact ⟨s, by simp only [step, hp]⟩
  | cons op rest =>
    rw [step_of_pending hp]
    exact performOp_total op _

/-! ### Error codes -/

/-- A command other than NOP that leaves an error code did nothing but `status(code, need)` (R140, R141): the commands
that write more end in OK, and SRESET clears the code. -/
theorem exec_of_code_ne_zero {i : Instr} {s t : State} (hnop : i ≠ .nop) (h : exec i s = .next t)
    (hcode : t.status.code ≠ 0) : ∃ code need, t = setStatus code need s := by
  rcases exec_cases i s t h with ⟨rfl, -⟩ | ⟨-, rfl⟩ | ⟨-, rfl⟩ | ⟨-, rfl⟩ | ⟨-, rfl⟩ | ⟨-, rfl⟩
  · exact absurd rfl hnop
  · rcases decodeCmd_cases s with ⟨need, -, hd⟩ | ⟨hdr, hl, lc, nm, -, hd⟩
    · exact ⟨_, _, hd⟩
    · exact absurd (by rw [hd]; rfl) hcode
  · exact absurd rfl hcode
  · rcases maskCmd_cases s with ⟨-, hm⟩ | ⟨-, hm⟩
    · exact ⟨_, _, hm⟩
    · exact absurd (by rw [hm]; rfl) hcode
  · exact absurd rfl hcode
  · exact ⟨_, _, rfl⟩

/-! ### The statements -/

/-- Settles O45: NOP answers the state itself, and an error code can only come from a bare `setStatus`. -/
theorem errorsChangeOnlyCodeAndNeed : Obligations.ErrorsChangeOnlyCodeAndNeed := by
  unfold Obligations.ErrorsChangeOnlyCodeAndNeed
  intro i s
  obtain ⟨t, ht⟩ := exec_total i s
  refine ⟨t, ht, fun hnop => ?_, fun hnop hcode => ?_⟩
  · rw [hnop, exec_nop, Host.Outcome.next.injEq] at ht
    rw [ht]
  · obtain ⟨code, need, rfl⟩ := exec_of_code_ne_zero hnop ht hcode
    rfl

/-- Settles O8: a step is a host operation, and a host operation is at most a command. -/
theorem everyStepAnswersANextState : Obligations.EveryStepAnswersANextState := by
  unfold Obligations.EveryStepAnswersANextState
  exact ⟨step_total, fun w s => exec_total (decode w) s, exec_total, performOp_total⟩

end Sys2Proof.Machine
end

section
/-! PROOFS. Command words there and back (spec/30_encoding.md R71, R72). -/
namespace Sys2Proof

@[simp] theorem opField_append (rsvd : BitVec 28) (op : BitVec 4) : opField (rsvd ++ op) = op :=
  BitVec.extractLsb'_append_eq_right

@[simp] theorem rsvdField_append (rsvd : BitVec 28) (op : BitVec 4) : rsvdField (rsvd ++ op) = rsvd :=
  BitVec.extractLsb'_append_eq_left

/-- Settles O3: a row with RSVD = 0 leaves at most two bits free, and the last row is met only with RSVD not 0. -/
theorem decodeInvertsEncode : Obligations.DecodeInvertsEncode := by
  unfold Obligations.DecodeInvertsEncode
  intro i hwf
  cases i with
  | nop | decode | encode | mask | sreset | reservedE => decide
  | reserved4to7 lo | reserved8toB lo | reservedCtoD lo => revert lo; decide
  | reservedRsvd op rsvd =>
    have hne : rsvdField (rsvd ++ op) ≠ 0 := by simpa [Instr.wf] using hwf
    rw [encode, decode_of_rsvdField_ne_zero hne, opField_append, rsvdField_append]

/-- Settles O4: with RSVD = 0 there are 16 words, one for each OP, and any other word is kept whole by the last row. -/
theorem encodeInvertsDecode : Obligations.EncodeInvertsDecode := by
  unfold Obligations.EncodeInvertsDecode
  intro w
  by_cases hw : rsvdField w = 0
  · rw [← rsvdField_append_opField w, hw]
    generalize opField w = op
    revert op
    decide
  · rw [decode_of_rsvdField_ne_zero hw]
    exact ⟨bne_iff_ne.mpr hw, rsvdField_append_opField w⟩

/-- Settles O1: the eleven words, evaluated. -/
theorem commandWordsDecodeToTheirCommands : Obligations.CommandWordsDecodeToTheirCommands := by
  unfold Obligations.CommandWordsDecodeToTheirCommands
  decide

end Sys2Proof
end

section
/-! PROOFS. The header codec there and back, and what DECODE reads and writes (spec/41_header_codec.md R101, R102,
section 3; spec/20_memory.md R54). -/
namespace Sys2Proof.Machine

/-! ### The first two bytes of a header -/

theorem wireFin_encoded (fin : Bool) (op : BitVec 4) : wireFin (BitVec.ofBool fin ++ 0#3 ++ op) = fin := by
  revert fin op
  decide

theorem wireOpcode_encoded (fin : Bool) (op : BitVec 4) : wireOpcode (BitVec.ofBool fin ++ 0#3 ++ op) = op :=
  BitVec.extractLsb'_append_eq_right

theorem wireMasked_encoded (m : Bool) (l : BitVec 7) : wireMasked (BitVec.ofBool m ++ l) = m := by
  revert m l
  decide

theorem wireLen7_encoded (m : Bool) (l : BitVec 7) : wireLen7 (BitVec.ofBool m ++ l) = l :=
  BitVec.extractLsb'_append_eq_right

/-- Byte 1 is its two fields (R76). -/
theorem wireMasked_append_wireLen7 (b1 : Byte) : BitVec.ofBool (wireMasked b1) ++ wireLen7 b1 = b1 := by
  revert b1
  decide

/-- Byte 0 is what an encoder writes of its two fields exactly when its RSV bits are 000 (R75, R86). -/
theorem wireFin_append_wireOpcode_iff (b0 : Byte) :
    BitVec.ofBool (wireFin b0) ++ 0#3 ++ wireOpcode b0 = b0 ↔ b0.extractLsb' 4 3 = 0 := by
  revert b0
  decide

/-- The decoder's length of an encoded header is the encoder's (R80, R106). -/
theorem headerLenOf_encoded (m : Bool) (len : BitVec 64) :
    headerLenOf (BitVec.ofBool m ++ encodedLen7 len) = 2 + extOfClass (lenClass len) + if m then 4 else 0 := by
  rw [headerLenOf, wireLen7_encoded, wireMasked_encoded, ext_encodedLen7]

/-! ### Big-endian lengths -/

theorem be16_extractLsb' {v : BitVec 64} (h : v.toNat ≤ 65535) :
    be16 (v.extractLsb' (8 * 1) 8) (v.extractLsb' (8 * 0) 8) = v := by
  apply BitVec.eq_of_toNat_eq
  simp only [be16_toNat, BitVec.extractLsb'_toNat, Nat.shiftRight_eq_div_pow]
  omega

theorem be64_extractLsb' (v : BitVec 64) :
    be64 (v.extractLsb' (8 * 7) 8) (v.extractLsb' (8 * 6) 8) (v.extractLsb' (8 * 5) 8) (v.extractLsb' (8 * 4) 8)
      (v.extractLsb' (8 * 3) 8) (v.extractLsb' (8 * 2) 8) (v.extractLsb' (8 * 1) 8) (v.extractLsb' (8 * 0) 8) = v := by
  apply BitVec.eq_of_toNat_eq
  simp only [be64_toNat, BitVec.extractLsb'_toNat, Nat.shiftRight_eq_div_pow]
  omega

/-! ### HEADER_LEN by the width class -/

/-- The decoder's length by its class (R39). -/
theorem headerLenOf_eq_extOfClass (b1 : Byte) :
    headerLenOf b1 = 2 + extOfClass (classOfExt (ext (wireLen7 b1))) + if wireMasked b1 then 4 else 0 := by
  rw [headerLenOf, extOfClass_classOfExt_ext]

theorem classOfExt_ne_three (e : Nat) : classOfExt e ≠ 3 := by
  rw [classOfExt]
  split_ifs <;> decide

theorem lenClass_ne_three (len : BitVec 64) : lenClass len ≠ 3 := by
  rcases lenClass_cases len with hc | hc | hc <;> rw [hc] <;> decide

/-! ### A buffer that begins with an encoded header -/

theorem two_add_ext_le_encodeHeader_length (h : Header) :
    2 + extOfClass (lenClass h.contentLen) ≤ (encodeHeader h).length := by
  simp only [encodeHeader, List.length_append, toBe_length]
  exact Nat.le_add_right _ _

section
variable {h : Header} {ib : Buf}
  (hbytes : ∀ k, k < (encodeHeader h).length → (encodeHeader h)[k]? = some (Buf.byte ib k))
include hbytes

theorem byte_zero_of_encoded : Buf.byte ib 0 = BitVec.ofBool h.fin ++ 0#3 ++ h.opcode := by
  have hlen := two_add_ext_le_encodeHeader_length h
  have hb := hbytes 0 (by omega)
  rw [encodeHeader_getElem?, if_pos rfl] at hb
  exact (Option.some.inj hb).symm

theorem byte_one_of_encoded : Buf.byte ib 1 = BitVec.ofBool h.isMasked ++ encodedLen7 h.contentLen := by
  have hlen := two_add_ext_le_encodeHeader_length h
  have hb := hbytes 1 (by omega)
  rw [encodeHeader_getElem?, if_neg one_ne_zero, if_pos rfl] at hb
  exact (Option.some.inj hb).symm

/-- Byte k of the extended length, which stands `j` bytes before its end. -/
theorem byte_length_of_encoded (k j : Nat) (hkj : extOfClass (lenClass h.contentLen) = k + j + 1) :
    Buf.byte ib (2 + k) = h.contentLen.extractLsb' (8 * j) 8 := by
  have hlen := two_add_ext_le_encodeHeader_length h
  have hb := hbytes (2 + k) (by omega)
  rw [encodeHeader_getElem?, if_neg (by omega), if_neg (by omega), if_pos (by omega)] at hb
  rw [← Option.some.inj hb, show extOfClass (lenClass h.contentLen) - 1 - (2 + k - 2) = j by omega]

/-- The three widths of R106 each hold the lengths they are chosen for. -/
theorem wireLen_of_encoded : wireLen ib = h.contentLen := by
  have hbyte := byte_length_of_encoded hbytes
  simp only [wireLen, byte_one_of_encoded hbytes, wireLen7_encoded, ext_encodedLen7]
  rcases lenClass_cases h.contentLen with hc | hc | hc <;> rw [hc] at hbyte ⊢
  · rw [lenClass_eq_zero_iff] at hc
    rw [if_pos (by decide)]
    apply BitVec.eq_of_toNat_eq
    rw [BitVec.toNat_setWidth, encodedLen7_toNat, if_pos hc]
    omega
  · rw [lenClass_eq_one_iff] at hc
    rw [if_neg (by decide), if_pos (by decide), hbyte 0 1 rfl, hbyte 1 0 rfl]
    exact be16_extractLsb' hc.2
  · rw [if_neg (by decide), if_neg (by decide), hbyte 0 7 rfl, hbyte 1 6 rfl, hbyte 2 5 rfl, hbyte 3 4 rfl,
      hbyte 4 3 rfl, hbyte 5 2 rfl, hbyte 6 1 rfl, hbyte 7 0 rfl]
    exact be64_extractLsb' _

theorem keyAt_of_encoded {key : MaskKey} (hm : h.isMasked = true) (hkey : h.mask = some key) :
    keyAt ib (2 + extOfClass (lenClass h.contentLen)) = key := by
  have hkeys : keyBytes h = [key.k0, key.k1, key.k2, key.k3] := by rw [keyBytes, hm, hkey]
  have hlen := encodeHeader_length h (by rw [Header.wf, hm, hkey]; rfl)
  rw [if_pos hm] at hlen
  have hbyte : ∀ j, j < 4 → (keyBytes h)[j]? = some (Buf.byte ib (2 + extOfClass (lenClass h.contentLen) + j)) := by
    intro j hj
    rw [← hbytes _ (by omega), encodeHeader_getElem?, if_neg (by omega), if_neg (by omega), if_neg (by omega),
      Nat.sub_sub, Nat.add_sub_cancel_left]
  rw [hkeys] at hbyte
  have h0 := Option.some.inj (hbyte 0 (by decide))
  have h1 := Option.some.inj (hbyte 1 (by decide))
  have h2 := Option.some.inj (hbyte 2 (by decide))
  have h3 := Option.some.inj (hbyte 3 (by decide))
  cases key
  exact (MaskKey.mk.injEq ..).mpr ⟨h0.symm, h1.symm, h2.symm, h3.symm⟩

theorem wireHeader_of_encoded (hwf : h.wf) : wireHeader ib = h := by
  have hb1 := byte_one_of_encoded hbytes
  have hmask : (wireHeader ib).mask = h.mask := by
    rw [wireHeader, hb1, wireMasked_encoded, wireLen7_encoded, ext_encodedLen7]
    cases hm : h.mask with
    | none =>
      have hmasked : h.isMasked = false := by rw [← hwf, hm, Option.isSome_none]
      rw [hmasked, if_neg Bool.false_ne_true]
    | some key =>
      have hmasked : h.isMasked = true := by rw [← hwf, hm, Option.isSome_some]
      rw [if_pos hmasked, keyAt_of_encoded hbytes hmasked hm]
  obtain ⟨fin, op, m, mask, len⟩ := h
  exact (Header.mk.injEq ..).mpr ⟨by rw [byte_zero_of_encoded hbytes, wireFin_encoded],
    by rw [byte_zero_of_encoded hbytes, wireOpcode_encoded], by rw [hb1, wireMasked_encoded], hmask,
    wireLen_of_encoded hbytes⟩

end

/-- Decoding inverts encoding, for every count that covers the header (section 3). -/
theorem decodeHeader_of_encoded {h : Header} {ib : Buf} {n : Nat} (hwf : h.wf)
    (hbytes : ∀ k, k < (encodeHeader h).length → (encodeHeader h)[k]? = some (Buf.byte ib k))
    (hn : (encodeHeader h).length ≤ n) :
    decodeHeader ib n = .ok h (encodeHeader h).length (lenClass h.contentLen) false := by
  have hb1 := byte_one_of_encoded hbytes
  have hlen : headerLenOf (Buf.byte ib 1) = (encodeHeader h).length := by
    rw [hb1, headerLenOf_encoded, encodeHeader_length h hwf]
  have hclass : classOfExt (ext (wireLen7 (Buf.byte ib 1))) = lenClass h.contentLen := by
    rw [hb1, wireLen7_encoded, ext_encodedLen7, classOfExt_extOfClass]
  have hmin : nonmin (ext (wireLen7 (Buf.byte ib 1))) (wireLen ib) = false := by
    rw [nonmin_wireLen_eq_false_iff, hclass, wireLen_of_encoded hbytes]
  rw [decodeHeader_of_headerLen_le (hlen.trans_le hn), wireResult, wireHeader_of_encoded hbytes hwf, hlen, hclass, hmin]

@[simp] theorem hdrOf_setStatus (c n : BitVec 4) (s : State) : hdrOf (setStatus c n s) = hdrOf s := rfl

/-- Loading a well-formed header into the registers and reading it back (R31, R102). -/
theorem hdrOf_loadHeader {h : Header} (hwf : h.wf) (hl : Nat) (lc : BitVec 2) (nm : Bool) (s : State) :
    hdrOf (loadHeader h hl lc nm s) = h := by
  obtain ⟨fin, op, m, mask, len⟩ := h
  cases m <;> cases mask <;> simp_all [hdrOf, Header.wf]

/-! ### Encoding the header a buffer begins with -/

theorem toBe_be16 (a b : Byte) : toBe (be16 a b) 2 = [a, b] := by
  simp only [toBe, List.cons.injEq, and_true]
  refine ⟨?_, ?_⟩ <;> apply BitVec.eq_of_toNat_eq <;> rw [toNat_extract_byte, be16_toNat] <;> omega

theorem toBe_be64 (a b c d e f g h : Byte) : toBe (be64 a b c d e f g h) 8 = [a, b, c, d, e, f, g, h] := by
  simp only [toBe, List.cons.injEq, and_true]
  refine ⟨?_, ?_, ?_, ?_, ?_, ?_, ?_, ?_⟩ <;> apply BitVec.eq_of_toNat_eq <;>
    rw [toNat_extract_byte, be64_toNat] <;> omega

/-- The wire's length in the wire's width is the bytes it was read from (R77). -/
theorem toBe_wireLen (ib : Buf) :
    toBe (wireLen ib) (ext (wireLen7 (Buf.byte ib 1))) =
      (List.range (ext (wireLen7 (Buf.byte ib 1)))).map (fun k => Buf.byte ib (2 + k)) := by
  simp only [wireLen]
  rcases ext_cases (wireLen7 (Buf.byte ib 1)) with he | he | he <;> rw [he]
  · rfl
  · exact toBe_be16 _ _
  · exact toBe_be64 _ _ _ _ _ _ _ _

theorem keyBytes_wireHeader (ib : Buf) :
    keyBytes (wireHeader ib) =
      (List.range (if wireMasked (Buf.byte ib 1) then 4 else 0)).map
        (fun j => Buf.byte ib (2 + ext (wireLen7 (Buf.byte ib 1)) + j)) := by
  cases hm : wireMasked (Buf.byte ib 1) <;> simp only [keyBytes, wireHeader, hm] <;> rfl

/-- `len7` is the encoder's too when the width is (R85). -/
theorem encodedLen7_wireLen {ib : Buf}
    (hclass : classOfExt (ext (wireLen7 (Buf.byte ib 1))) = lenClass (wireLen ib)) :
    encodedLen7 (wireLen ib) = wireLen7 (Buf.byte ib 1) := by
  have hext := ext_eq (wireLen7 (Buf.byte ib 1))
  apply BitVec.eq_of_toNat_eq
  rw [encodedLen7_toNat]
  rcases ext_cases (wireLen7 (Buf.byte ib 1)) with he | he | he <;> rw [he] at hclass hext
  · rw [if_pos ((lenClass_eq_zero_iff _).mp hclass.symm), wireLen_toNat, if_pos he]
  · have hlen := (lenClass_eq_one_iff _).mp hclass.symm
    rw [if_neg (by omega), if_pos hlen.2]
    split_ifs at hext <;> omega
  · have hlen := (lenClass_eq_two_iff _).mp hclass.symm
    rw [if_neg (by omega), if_neg (by omega)]
    split_ifs at hext <;> omega

/-- A header of minimal length encodes to its own bytes, but for the RSV bits of byte 0 (section 3, converse). -/
theorem encodeHeader_wireHeader {ib : Buf}
    (hclass : classOfExt (ext (wireLen7 (Buf.byte ib 1))) = lenClass (wireLen ib)) :
    encodeHeader (wireHeader ib) =
      (BitVec.ofBool (wireFin (Buf.byte ib 0)) ++ 0#3 ++ wireOpcode (Buf.byte ib 0)) ::
        ((List.range (headerLenOf (Buf.byte ib 1))).map (Buf.byte ib)).tail := by
  have hext : extOfClass (lenClass (wireLen ib)) = ext (wireLen7 (Buf.byte ib 1)) := by
    rw [← hclass, extOfClass_classOfExt_ext]
  rw [headerLenOf, List.range_add, List.range_add, encodeHeader, keyBytes_wireHeader]
  simp only [wireHeader, hext, toBe_wireLen, encodedLen7_wireLen hclass, wireMasked_append_wireLen7, List.map_append,
    List.map_map]
  rfl

theorem map_range_headerLenOf (ib : Buf) :
    (List.range (headerLenOf (Buf.byte ib 1))).map (Buf.byte ib) =
      Buf.byte ib 0 :: ((List.range (headerLenOf (Buf.byte ib 1))).map (Buf.byte ib)).tail := by
  obtain ⟨n, hn⟩ : ∃ n, headerLenOf (Buf.byte ib 1) = n + 1 :=
    ⟨_, (Nat.sub_add_cancel (Nat.le_of_lt (two_le_headerLenOf _))).symm⟩
  rw [hn, List.range_succ_eq_map]
  rfl

/-! ### The key in the IBUF window -/

/-- After a DECODE that ends OK with MASKED, MASK_KEY is the word of the last four header bytes (R104, R54). -/
theorem maskKey_decodeCmd_eq_word {s : State} {k : Nat} (hcode : (decodeCmd s).status.code = 0)
    (hm : (decodeCmd s).masked = true) (hk : (decodeCmd s).headerLen.toNat - 4 = 4 * k) :
    (decodeCmd s).maskKey = Buf.word s.ibuf k := by
  obtain ⟨hkey, -, -⟩ := decodedKeyIsTheEndOfTheHeader s _ (exec_decode s) hcode
  have hlane := hkey hm
  rw [hk] at hlane
  rw [← ofLanes_lanes (decodeCmd s).maskKey]
  simp only [lane, hlane 0 (by decide), hlane 1 (by decide), hlane 2 (by decide), hlane 3 (by decide)]
  rfl

/-! ### The statements -/

/-- Settles O34: the wire fields of an encoded header are its own. -/
theorem decodeInvertsEncodeHeader : Obligations.DecodeInvertsEncodeHeader := by
  unfold Obligations.DecodeInvertsEncodeHeader
  exact fun h ib n hwf hbytes hn _ => decodeHeader_of_encoded hwf hbytes hn

/-- Settles O35: OBUF holds the encoding of the header the registers hold, which DECODE loads back. -/
theorem encodeCopyDecodeKeepsTheHeader : Obligations.EncodeCopyDecodeKeepsTheHeader := by
  unfold Obligations.EncodeCopyDecodeKeepsTheHeader
  intro s t ib ht hcopy
  rw [exec_encode, Host.Outcome.next.injEq] at ht
  subst ht
  have hlen : (encodeCmd s).obufLen.toNat = (encodeHeader (hdrOf s)).length :=
    (toNat_ofNat_encodeHeader_length (hdrOf_wf s)).1
  have hbytes : ∀ k, k < (encodeHeader (hdrOf s)).length →
      (encodeHeader (hdrOf s))[k]? = some (Buf.byte ib k) := by
    intro k hk
    have hcases := encodeHeader_length_cases (hdrOf s) (hdrOf_wf s)
    rw [hcopy k (by omega), byte_obuf_encodeCmd s (by omega), List.getElem?_eq_getElem hk, Option.getD_some]
  have hdecode := decodeHeader_of_encoded (hdrOf_wf s) hbytes hlen.ge
  refine ⟨_, exec_decode _, ?_⟩
  rw [decodeCmd_of_ok (s := { encodeCmd s with ibuf := ib, ibufAvail := (encodeCmd s).obufLen }) hdecode]
  exact ⟨by rw [hdrOf_setStatus, hdrOf_loadHeader (hdrOf_wf s)], rfl, rfl, rfl, rfl⟩

/-- Settles O36: the lengths agree only in the width ENCODE selects, which leaves the RSV bits of byte 0 to differ. -/
theorem reencodingReproducesMinimalHeaders : Obligations.ReencodingReproducesMinimalHeaders := by
  unfold Obligations.ReencodingReproducesMinimalHeaders
  intro ib n h hl lc nm _ heq
  obtain ⟨-, rfl, rfl, -, rfl⟩ := decodeHeader_eq_ok heq
  rw [nonmin_wireLen_eq_false_iff, ← wireFin_append_wireOpcode_iff]
  constructor
  · intro hbytes
    have hclass : classOfExt (ext (wireLen7 (Buf.byte ib 1))) = lenClass (wireLen ib) := by
      have hlen := congrArg List.length hbytes
      rw [encodeHeader_length _ (wireHeader_wf ib), List.length_map, List.length_range, headerLenOf] at hlen
      have hext : extOfClass (lenClass (wireLen ib)) = ext (wireLen7 (Buf.byte ib 1)) :=
        Nat.add_left_cancel (Nat.add_right_cancel hlen)
      rw [← hext, classOfExt_extOfClass]
    rw [encodeHeader_wireHeader hclass, map_range_headerLenOf] at hbytes
    exact ⟨(List.cons.inj hbytes).1, hclass⟩
  · rintro ⟨hbyte, hclass⟩
    rw [encodeHeader_wireHeader hclass, hbyte, ← map_range_headerLenOf]

/-- Settles O13: DECODE and ENCODE write the length and the class of one header. -/
theorem headerLenFitsTheCommandThatWroteIt : Obligations.HeaderLenFitsTheCommandThatWroteIt := by
  unfold Obligations.HeaderLenFitsTheCommandThatWroteIt
  intro s t i hi ht
  rcases hi with ⟨rfl, hcode⟩ | rfl
  · rw [exec_decode, Host.Outcome.next.injEq] at ht
    subst ht
    obtain ⟨h, hl, lc, nm, heq, hd⟩ := decodeCmd_of_code_zero hcode
    obtain ⟨-, rfl, rfl, rfl, -⟩ := decodeHeader_eq_ok heq
    rw [hd]
    exact ⟨(toNat_ofNat_headerLenOf _).trans (headerLenOf_eq_extOfClass _), classOfExt_ne_three _⟩
  · rw [exec_encode, Host.Outcome.next.injEq] at ht
    subst ht
    obtain ⟨-, hlen⟩ := toNat_ofNat_encodeHeader_length (hdrOf_wf s)
    exact ⟨hlen.trans (encodeHeader_hdrOf_length s), lenClass_ne_three _⟩

/-- Settles O22: the frame of both outcomes, and on INCOMPLETE nothing but CODE and NEED is written. -/
theorem decodeFrame : Obligations.DecodeFrame := by
  unfold Obligations.DecodeFrame
  intro s t ht
  rw [exec_decode, Host.Outcome.next.injEq] at ht
  subst ht
  obtain ⟨hibuf, hobuf, hrange, hpbuf, hhost⟩ := decodeCmd_frame s
  refine ⟨hibuf, hobuf, hrange, hpbuf, hhost, fun hcode => ?_⟩
  rcases decodeCmd_cases s with ⟨need, -, hd⟩ | ⟨h, hl, lc, nm, -, hd⟩
  · rw [hd]
    exact ⟨⟨rfl, rfl, rfl, rfl, rfl⟩, ⟨rfl, rfl⟩, rfl, rfl⟩
  · exact absurd (by rw [hd]; rfl) hcode

/-- Settles O24: below the count byte 1 is the same, and from there on the result is of the header's bytes. -/
theorem decodeReadsOnlyTheHeaderBytes : Obligations.DecodeReadsOnlyTheHeaderBytes := by
  unfold Obligations.DecodeReadsOnlyTheHeaderBytes
  intro ib ib' n h
  by_cases h2 : n < 2
  · rw [decodeHeader_of_lt_two ib h2, decodeHeader_of_lt_two ib' h2]
  · have h1 : Buf.byte ib' 1 = Buf.byte ib 1 := h 1 (by omega) (two_le_headerLenOf _)
    by_cases hlt : n < headerLenOf (Buf.byte ib 1)
    · rw [decodeHeader_of_lt_headerLen (by omega) hlt, decodeHeader_of_lt_headerLen (by omega) (h1 ▸ hlt), h1]
    · have hle : headerLenOf (Buf.byte ib 1) ≤ n := Nat.le_of_not_lt hlt
      rw [decodeHeader_of_headerLen_le hle, decodeHeader_of_headerLen_le (h1 ▸ hle)]
      exact wireResult_congr fun k hk => h k (by omega) hk

/-- Settles O60: HEADER_LEN is below 16, so the key's word lies in the IBUF window. -/
theorem alignedKeyWordEqualsMaskKey : Obligations.AlignedKeyWordEqualsMaskKey := by
  unfold Obligations.AlignedKeyWordEqualsMaskKey
  intro s t a k ht hcode hm hk ha
  rw [exec_decode, Host.Outcome.next.injEq] at ht
  subst ht
  have hk4 : k < 4 := by omega
  rw [maskKey_decodeCmd_eq_word hcode hm hk]
  exact busRead_of_target (target_ibuf s.cfg a k hk4 ha)

end Sys2Proof.Machine
end

section
/-! PROOFS. The invariants: each update of the state keeps them, so every command, host access and step does
(spec/10_state.md R39; spec/70_reset_and_hazards.md R168). -/
namespace Sys2Proof.Machine

/-! ### Header lengths -/

theorem legalHeaderLen_headerLenOf (b1 : Byte) : legalHeaderLen (headerLenOf b1) := headerLenOf_cases b1

theorem legalHeaderLen_encodeHeader_length {h : Header} (hwf : h.wf) : legalHeaderLen (encodeHeader h).length :=
  encodeHeader_length_cases h hwf

/-- An INCOMPLETE asks for a length some header has (R25). -/
theorem legalHeaderLen_of_incomplete {ib : Buf} {n need : Nat} (heq : decodeHeader ib n = .incomplete need) :
    legalHeaderLen need := by
  by_cases h2 : 2 ≤ n
  · rw [decodeHeader_eq_incomplete h2 heq]
    exact legalHeaderLen_headerLenOf _
  · rw [decodeHeader_of_lt_two ib (by omega)] at heq
    cases heq
    exact .inl rfl

theorem toNat_ofNat_of_legalHeaderLen {n : Nat} (h : legalHeaderLen n) : (BitVec.ofNat 4 n).toNat = n :=
  Nat.mod_eq_of_lt (by unfold legalHeaderLen at h; omega)

theorem toNat_le_two_of_ne_three {c : BitVec 2} (h : c ≠ 3) : c.toNat ≤ 2 := by
  revert c
  decide

/-! ### The updates -/

section
variable {s : State} (h : Inv s)
include h

theorem inv_setStatus {code need : BitVec 4} (hcode : code.toNat ≤ 3)
    (hneed : code = codeIncomplete → legalHeaderLen need.toNat) (hzero : code ≠ codeIncomplete → need = 0) :
    Inv (setStatus code need s) :=
  { h with codeLegal := hcode, needOnIncomplete := hneed, needElseZero := hzero }

/-- A status other than INCOMPLETE carries NEED = 0. -/
theorem inv_setStatus_zero {code : BitVec 4} (hcode : code.toNat ≤ 3) (hne : code ≠ codeIncomplete) :
    Inv (setStatus code 0 s) :=
  inv_setStatus h hcode (fun heq => absurd heq hne) (fun _ => rfl)

theorem inv_loadHeader_wire (hdr : Header) (b1 : Byte) (nm : Bool) :
    Inv (loadHeader hdr (headerLenOf b1) (classOfExt (ext (wireLen7 b1))) nm s) :=
  have hlen := toNat_ofNat_headerLenOf b1
  { h with
    headerLenLegal := .inr (hlen.symm ▸ legalHeaderLen_headerLenOf b1)
    lclassLegal := toNat_le_two_of_ne_three (classOfExt_ne_three _)
    headerLenForm := fun _ => ⟨wireMasked b1, hlen.trans (headerLenOf_eq_extOfClass b1)⟩ }

theorem inv_writePbuf {a : Nat} {bytes : List Byte} (hfit : a + bytes.length ≤ s.cfg.pbufSize) :
    Inv (writePbuf a bytes s) :=
  { h with
    pbufCanonical := Memory.wf_insertList s.pbuf a bytes h.pbufCanonical
    pbufWithin := Memory.within_insertList s.cfg.pbufSize s.pbuf a bytes hfit h.pbufWithin }

theorem inv_maskPhase (p : BitVec 2) : Inv { s with maskPhase := p } := { h with }

theorem inv_writeReg (w : Word) (r : Reg) : Inv (writeReg s w r) := by
  cases r with
  | ibufAvail => exact { h with ibufAvailLegal := (legalAvail_toNat w).trans_le (Nat.min_le_right _ _) }
  | _ => exact { h with }

/-- PBUF_SIZE is a multiple of 4, so a word that begins inside PBUF ends inside it (R6). -/
theorem inv_busWrite (a : HAddr) (w : Word) : Inv (busWrite s a w) := by
  rw [busWrite]
  rcases target_cases s.cfg a with ⟨r, hg⟩ | ⟨k, -, hg⟩ | ⟨k, -, hg⟩ | ⟨k, hk, hg⟩ | hg <;> rw [hg]
  · exact inv_writeReg h w r
  · exact { h with }
  · exact h
  · obtain ⟨hmod, -⟩ := h.cfgLegal
    exact inv_writePbuf h (by simp only [List.length_cons, List.length_nil]; omega)
  · exact h

end

/-- After any kind of reset the registers have the invariants, whatever the state was. -/
theorem inv_clearAllButPbuf_with (s : State) {pbuf : Memory} {cfg : Config} (k : Nat) (ops : List HostOp)
    (obs : List Word) (hcfg : cfg.legal) (hwf : Memory.wf pbuf = true) (hin : Memory.within cfg.pbufSize pbuf = true) :
    Inv { clearAllButPbuf s with pbuf := pbuf, cfg := cfg, powerOns := k, pending := ops, observed := obs } where
  cfgLegal := hcfg
  headerLenLegal := .inl rfl
  lclassLegal := Nat.zero_le _
  headerLenForm hne := absurd rfl hne
  obufLenLegal := .inl rfl
  obufZeroFill i _ := Buf.byte_replicate_zero i
  ibufAvailLegal := Nat.zero_le _
  codeLegal := Nat.zero_le _
  needOnIncomplete heq := absurd heq (by decide : (0 : BitVec 4) ≠ codeIncomplete)
  needElseZero _ := rfl
  pbufCanonical := hwf
  pbufWithin := hin

/-! ### Commands, host operations and steps -/

section
variable {s : State} (h : Inv s)
include h

theorem inv_decodeCmd : Inv (decodeCmd s) := by
  rcases decodeCmd_cases s with ⟨need, heq, hd⟩ | ⟨hdr, hl, lc, nm, heq, hd⟩ <;> rw [hd]
  · have hneed := legalHeaderLen_of_incomplete heq
    rw [← toNat_ofNat_of_legalHeaderLen hneed] at hneed
    exact inv_setStatus h (by decide) (fun _ => hneed) (fun hne => absurd rfl hne)
  · obtain ⟨-, rfl, rfl, rfl, -⟩ := decodeHeader_eq_ok heq
    exact inv_setStatus_zero (inv_loadHeader_wire h _ _ nm) (by decide) (by decide)

theorem inv_encodeCmd : Inv (encodeCmd s) := by
  have hwf := hdrOf_wf s
  obtain ⟨hobufLen, hheaderLen⟩ := toNat_ofNat_encodeHeader_length hwf
  have hlegal := legalHeaderLen_encodeHeader_length hwf
  have hstored : Inv (storeHeader (encodeHeader (hdrOf s)) s) :=
    { h with
      headerLenLegal := .inr (hheaderLen.symm ▸ hlegal)
      lclassLegal := toNat_le_two_of_ne_three (lenClass_ne_three _)
      headerLenForm := fun _ => ⟨s.masked, hheaderLen.trans (encodeHeader_hdrOf_length s)⟩
      obufLenLegal := .inr (hobufLen.symm ▸ hlegal)
      obufZeroFill := fun k hk => by
        by_cases hk16 : k < 16
        · exact byte_obuf_encodeCmd_of_length_le (hobufLen.symm.trans_le hk) hk16
        · exact Buf.byte_of_ge _ _ (Nat.le_of_not_lt hk16) }
  exact inv_setStatus_zero hstored (by decide) (by decide)

theorem inv_maskCmd : Inv (maskCmd s) := by
  rcases maskCmd_cases s with ⟨-, hm⟩ | ⟨hfit, hm⟩ <;> rw [hm]
  · exact inv_setStatus_zero h (by decide) (by decide)
  · have hwritten := inv_writePbuf h (a := s.pStart.toNat)
      (bytes := xorMask (keyOfWord s.maskKey) s.maskPhase (pbufBytes s s.pStart.toNat s.pCount.toNat))
      (by rwa [xorMask_length, pbufBytes_length])
    exact inv_setStatus_zero (inv_maskPhase hwritten _) (by decide) (by decide)

theorem inv_exec {i : Instr} {t : State} (ht : exec i s = .next t) : Inv t := by
  rcases exec_cases i s t ht with ⟨-, rfl⟩ | ⟨-, rfl⟩ | ⟨-, rfl⟩ | ⟨-, rfl⟩ | ⟨-, rfl⟩ | ⟨-, rfl⟩
  · exact h
  · exact inv_decodeCmd h
  · exact inv_encodeCmd h
  · exact inv_maskCmd h
  · exact inv_clearAllButPbuf_with s _ _ _ h.cfgLegal h.pbufCanonical h.pbufWithin
  · exact inv_setStatus_zero h (by decide) (by decide)

theorem inv_performOp {op : HostOp} {t : State} (ht : performOp op s = .next t) : Inv t := by
  rcases performOp_cases op s t ht with ⟨a, -, rfl⟩ | ⟨w, -, he⟩ | ⟨a, w, -, -, rfl⟩ | ⟨-, rfl⟩
  · exact { h with }
  · exact inv_exec h he
  · exact inv_busWrite h a w
  · exact inv_clearAllButPbuf_with s _ _ _ h.cfgLegal rfl rfl

theorem inv_step {t : State} (ht : step s = .next t) : Inv t := by
  rcases step_cases s t ht with ⟨-, rfl⟩ | ⟨op, rest, -, hop⟩
  · exact h
  · exact inv_performOp (s := { s with pending := rest }) { h with } hop

end

theorem inv_powerOn {cfg : Config} (hcfg : cfg.legal) (k : Nat) (ops : List HostOp) : Inv (State.powerOn cfg k ops) :=
  inv_clearAllButPbuf_with State.reset k ops [] hcfg rfl rfl

/-! ### The statements -/

/-- Settles O10: a step is at most one host operation, and each of these is made of updates that keep the invariants. -/
theorem everyStepKeepsTheInvariants : Obligations.EveryStepKeepsTheInvariants := by
  unfold Obligations.EveryStepKeepsTheInvariants
  exact fun s t h ht => inv_step h ht

/-- Settles O11: the power-on state is all zero, with no PBUF byte written. -/
theorem powerOnStateHasTheInvariants : Obligations.PowerOnStateHasTheInvariants := by
  unfold Obligations.PowerOnStateHasTheInvariants
  exact ⟨fun cfg k ops hcfg => inv_powerOn hcfg k ops, inv_powerOn (by decide) 0 []⟩

/-- Settles O12, by induction on the run. -/
theorem reachableStatesHaveTheInvariants : Obligations.ReachableStatesHaveTheInvariants := by
  unfold Obligations.ReachableStatesHaveTheInvariants
  intro s hs
  induction hs with
  | powerOn cfg k ops hcfg => exact inv_powerOn hcfg k ops
  | launch s h => exact h
  | step s t _ ht ih => exact inv_step ih ht

end Sys2Proof.Machine
end

section
/-! PROOFS. What holds of every command: what it may write, its status and the causes, running it twice, and what MASK
reads (spec/30_encoding.md R73; spec/60_exceptions.md R142; spec/20_memory.md section 3; spec/42_mask_engine.md R122,
R125). -/
namespace Sys2Proof

theorem Instr.ne_of_isReserved {i : Instr} (h : i.isReserved = true) : i ≠ .decode ∧ i ≠ .mask := by
  constructor <;> rintro rfl <;> cases h

end Sys2Proof

namespace Sys2Proof.Machine

/-! ### What each command may write -/

theorem samePbuf_setStatus (c n : BitVec 4) (s : State) : SamePbuf s (setStatus c n s) := pbufByte_congr rfl rfl

/-- Settles O47: the frame of each command. -/
theorem whatEachCommandMayWrite : Obligations.WhatEachCommandMayWrite := by
  unfold Obligations.WhatEachCommandMayWrite
  intro i s t ht
  rcases exec_cases i s t ht with ⟨-, rfl⟩ | ⟨rfl, rfl⟩ | ⟨rfl, rfl⟩ | ⟨rfl, rfl⟩ | ⟨rfl, rfl⟩ | ⟨-, rfl⟩
  · exact ⟨⟨rfl, rfl, rfl, rfl⟩, fun _ _ => ⟨rfl, rfl, rfl, rfl, rfl⟩, fun _ _ _ => ⟨rfl, rfl⟩, fun _ _ _ _ => rfl,
      fun _ => ⟨⟨rfl, rfl⟩, ⟨rfl, rfl⟩⟩, fun _ _ => ⟨rfl, rfl⟩, fun _ _ => rfl⟩
  · obtain ⟨hibuf, hobuf, hrange, hpbuf, hhost⟩ := decodeCmd_frame s
    exact ⟨hhost, fun hne => absurd rfl hne, fun hne => absurd rfl hne, fun hne => absurd rfl hne,
      fun _ => ⟨hibuf, hrange⟩, fun _ _ => hobuf, fun _ => hpbuf⟩
  · obtain ⟨hheader, hibuf, hrange, hpbuf, hhost⟩ := encodeCmd_frame s
    exact ⟨hhost, fun _ _ => hheader, fun _ hne => absurd rfl hne, fun _ hne => absurd rfl hne,
      fun _ => ⟨hibuf, hrange⟩, fun hne => absurd rfl hne, fun _ => hpbuf⟩
  · obtain ⟨hheader, hinfo, hibuf, hobuf, hrange, -, hhost⟩ := maskCmd_frame s
    exact ⟨hhost, fun _ _ => hheader, fun _ _ _ => hinfo, fun _ _ hne => absurd rfl hne, fun _ => ⟨hibuf, hrange⟩,
      fun _ _ => hobuf, fun hne => absurd rfl hne⟩
  · exact ⟨sameHost_clearAllButPbuf s, fun _ hne => absurd rfl hne, fun _ _ hne => absurd rfl hne,
      fun _ _ _ hne => absurd rfl hne, fun hne => absurd rfl hne, fun _ hne => absurd rfl hne,
      fun _ => samePbuf_clearAllButPbuf s⟩
  · exact ⟨⟨rfl, rfl, rfl, rfl⟩, fun _ _ => ⟨rfl, rfl, rfl, rfl, rfl⟩, fun _ _ _ => ⟨rfl, rfl⟩, fun _ _ _ _ => rfl,
      fun _ => ⟨⟨rfl, rfl⟩, ⟨rfl, rfl⟩⟩, fun _ _ => ⟨rfl, rfl⟩, fun _ => samePbuf_setStatus codeBadCmd 0 s⟩

theorem sameHost_exec {i : Instr} {s t : State} (ht : exec i s = .next t) : SameHost s t :=
  (whatEachCommandMayWrite i s t ht).1

/-! ### HEADER_LEN and LCLASS -/

/-- The commands that can change HEADER_LEN or LCLASS, and when (R28). -/
theorem exec_info_cases {i : Instr} {s t : State} (ht : exec i s = .next t) :
    SameInfo s t ∨ (i = .decode ∧ t.status.code = 0) ∨ i = .encode ∨ i = .sreset := by
  by_cases hdecode : i = .decode
  · subst hdecode
    by_cases hcode : t.status.code = 0
    · exact .inr (.inl ⟨rfl, hcode⟩)
    · obtain ⟨c, n, rfl⟩ := exec_of_code_ne_zero (by decide) ht hcode
      exact .inl ⟨rfl, rfl⟩
  · by_cases hencode : i = .encode
    · exact .inr (.inr (.inl hencode))
    · by_cases hsreset : i = .sreset
      · exact .inr (.inr (.inr hsreset))
      · obtain ⟨-, -, hinfo, -⟩ := whatEachCommandMayWrite i s t ht
        exact .inl (hinfo hdecode hencode hsreset)

theorem performOp_info_cases {op : HostOp} {s t : State} (ht : performOp op s = .next t) :
    SameInfo s t ∨ op = .powerOnReset ∨
      ∃ w, op = .write cmdAddr w ∧
        ((decode w = .decode ∧ t.status.code = 0) ∨ decode w = .encode ∨ decode w = .sreset) := by
  rcases performOp_cases op s t ht with ⟨a, -, rfl⟩ | ⟨w, rfl, he⟩ | ⟨a, w, -, -, rfl⟩ | ⟨rfl, -⟩
  · exact .inl ⟨rfl, rfl⟩
  · rcases exec_info_cases he with hinfo | hw
    · exact .inl hinfo
    · exact .inr (.inr ⟨w, rfl, hw⟩)
  · obtain ⟨-, -, -, -, -, hheaderLen, hlclass, -⟩ := busWrite_frame s a w
    exact .inl ⟨hheaderLen, hlclass⟩
  · exact .inr (.inl rfl)

/-! ### Status codes -/

/-- The bytes a DECODE needs, as far as IBUF says: byte 1 is there from the second byte on (R101). -/
def bytesNeeded (s : State) : Nat := if s.ibufAvail.toNat < 2 then 2 else headerLenOf (Buf.byte s.ibuf 1)

theorem decodeCmd_of_lt_bytesNeeded {s : State} (h : s.ibufAvail.toNat < bytesNeeded s) :
    decodeCmd s = setStatus codeIncomplete (BitVec.ofNat 4 (bytesNeeded s)) s := by
  unfold bytesNeeded at h ⊢
  split_ifs at h ⊢ with h2
  · exact decodeCmd_of_incomplete (decodeHeader_of_lt_two s.ibuf h2)
  · exact decodeCmd_of_incomplete (decodeHeader_of_lt_headerLen (Nat.le_of_not_lt h2) h)

theorem decodeCmd_status_of_bytesNeeded_le {s : State} (h : bytesNeeded s ≤ s.ibufAvail.toNat) :
    (decodeCmd s).status.code = codeOk ∧ (decodeCmd s).status.need = 0 := by
  have hle : headerLenOf (Buf.byte s.ibuf 1) ≤ s.ibufAvail.toNat := by
    unfold bytesNeeded at h
    split_ifs at h
    · omega
    · exact h
  rw [decodeCmd_of_ok (decodeHeader_of_headerLen_le hle)]
  exact ⟨rfl, rfl⟩

theorem toNat_ofNat_bytesNeeded (s : State) : (BitVec.ofNat 4 (bytesNeeded s)).toNat = bytesNeeded s := by
  unfold bytesNeeded
  split_ifs
  · rfl
  · exact toNat_ofNat_headerLenOf _

/-- The status a command other than NOP leaves, with its cause (R142). -/
theorem exec_status_cases {i : Instr} {s t : State} (hnop : i ≠ .nop) (ht : exec i s = .next t) :
    ((i = .decode ∧ s.ibufAvail.toNat < bytesNeeded s) ∧ t.status.code = codeIncomplete ∧
        t.status.need.toNat = bytesNeeded s) ∨
      (i.isReserved = true ∧ t.status.code = codeBadCmd ∧ t.status.need = 0) ∨
      ((i = .mask ∧ s.cfg.pbufSize < s.pStart.toNat + s.pCount.toNat) ∧ t.status.code = codeRange ∧
        t.status.need = 0) ∨
      (¬ (i = .decode ∧ s.ibufAvail.toNat < bytesNeeded s) ∧ i.isReserved = false ∧
        ¬ (i = .mask ∧ s.cfg.pbufSize < s.pStart.toNat + s.pCount.toNat) ∧ t.status.code = codeOk ∧
        t.status.need = 0) := by
  rcases exec_cases i s t ht with ⟨rfl, -⟩ | ⟨rfl, rfl⟩ | ⟨rfl, rfl⟩ | ⟨rfl, rfl⟩ | ⟨rfl, rfl⟩ | ⟨hi, rfl⟩
  · exact absurd rfl hnop
  · by_cases hlt : s.ibufAvail.toNat < bytesNeeded s
    · rw [decodeCmd_of_lt_bytesNeeded hlt]
      exact .inl ⟨⟨rfl, hlt⟩, rfl, toNat_ofNat_bytesNeeded s⟩
    · have hstatus := decodeCmd_status_of_bytesNeeded_le (Nat.le_of_not_lt hlt)
      exact .inr (.inr (.inr ⟨fun h => hlt h.2, rfl, by simp, hstatus⟩))
  · exact .inr (.inr (.inr ⟨by simp, rfl, by simp, rfl, rfl⟩))
  · rcases maskCmd_cases s with ⟨hrange, hm⟩ | ⟨hfit, hm⟩ <;> rw [hm]
    · exact .inr (.inr (.inl ⟨⟨rfl, hrange⟩, rfl, rfl⟩))
    · exact .inr (.inr (.inr ⟨by simp, rfl, fun h => by omega, rfl, rfl⟩))
  · exact .inr (.inr (.inr ⟨by simp, rfl, by simp, rfl, rfl⟩))
  · exact .inr (.inl ⟨hi, rfl, rfl⟩)

/-! ### Running a command twice -/

@[simp] theorem decodeCmd_decodeCmd (s : State) : decodeCmd (decodeCmd s) = decodeCmd s := by
  rcases decodeCmd_cases s with ⟨need, heq, hd⟩ | ⟨h, hl, lc, nm, heq, hd⟩ <;> rw [hd]
  · rw [decodeCmd_of_incomplete (s := setStatus codeIncomplete (BitVec.ofNat 4 need) s) heq]
    rfl
  · rw [decodeCmd_of_ok (s := setStatus codeOk 0 (loadHeader h hl lc nm s)) heq]
    rfl

/-- ENCODE leaves the header it encodes. -/
@[simp] theorem hdrOf_encodeCmd (s : State) : hdrOf (encodeCmd s) = hdrOf s := rfl

@[simp] theorem encodeCmd_encodeCmd (s : State) : encodeCmd (encodeCmd s) = encodeCmd s := by
  rw [encodeCmd, hdrOf_encodeCmd, encodeCmd]
  generalize encodeHeader (hdrOf s) = bytes
  rfl

/-! ### MASK and the header -/

/-- MASK does not read the header registers, HEADER_LEN or LCLASS. -/
theorem maskCmd_with_header (s : State) (fin masked : Bool) (op : BitVec 4) (len : BitVec 64) (hl : BitVec 4)
    (lc : BitVec 2) :
    maskCmd { s with fin := fin, masked := masked, opcode := op, contentLen := len, headerLen := hl, lclass := lc } =
      { maskCmd s with
        fin := fin, masked := masked, opcode := op, contentLen := len, headerLen := hl, lclass := lc } := by
  have hbytes : ∀ a n, pbufBytes
      { s with fin := fin, masked := masked, opcode := op, contentLen := len, headerLen := hl, lclass := lc } a n =
        pbufBytes s a n := pbufBytes_congr rfl rfl
  simp only [maskCmd, hbytes]
  split <;> rfl

/-- After a DECODE that ends OK the key byte of a payload index (R104, R125). -/
theorem keyByte_decodeCmd {s : State} (hcode : (decodeCmd s).status.code = 0) (i : Nat) :
    (keyOfWord (decodeCmd s).maskKey).at ((decodeCmd s).maskPhase + BitVec.ofNat 2 i) =
      if (decodeCmd s).masked then Buf.byte s.ibuf ((decodeCmd s).headerLen.toNat - 4 + i % 4) else 0 := by
  obtain ⟨hkey, hnone, hphase⟩ := decodedKeyIsTheEndOfTheHeader s _ (exec_decode s) hcode
  have hphase0 : (decodeCmd s).maskPhase.toNat = 0 := congrArg BitVec.toNat hphase
  rw [keyOfWord_at, toNat_add_ofNat_two, hphase0, Nat.zero_add]
  cases hm : (decodeCmd s).masked with
  | true => exact hkey hm (i % 4) (Nat.mod_lt _ (by decide))
  | false => simp [hnone hm, lane]

/-! ### The statements -/

/-- Settles O48: a step's HDR_INFO follows that of its host operation. -/
theorem hdrInfoChangesOnlyWithHeaderCommandsAndReset :
    Obligations.HdrInfoChangesOnlyWithHeaderCommandsAndReset := by
  unfold Obligations.HdrInfoChangesOnlyWithHeaderCommandsAndReset
  intro s t ht hne
  rcases step_cases s t ht with ⟨-, rfl⟩ | ⟨op, rest, hp, hop⟩
  · exact absurd ⟨rfl, rfl⟩ hne
  · exact ⟨op, rest, hp, (performOp_info_cases hop).resolve_left hne⟩

/-- Settles O46: the four outcomes exclude each other, each with its cause. -/
theorem statusCodesAndTheirCauses : Obligations.StatusCodesAndTheirCauses := by
  unfold Obligations.StatusCodesAndTheirCauses
  intro i s t hnop ht need
  have hframe : t.status.code ≠ 0 →
      t = { s with status := { code := t.status.code, need := t.status.need, flags := s.status.flags } } := by
    intro hcode
    obtain ⟨code, n, rfl⟩ := exec_of_code_ne_zero hnop ht hcode
    rfl
  have hneed : need = bytesNeeded s := rfl
  rw [hneed]
  rcases exec_status_cases hnop ht with ⟨⟨rfl, hlt⟩, hcode, hn⟩ | ⟨hi, hcode, hn⟩ | ⟨⟨rfl, hrange⟩, hcode, hn⟩ |
    ⟨hdecode, hi, hmask, hcode, hn⟩
  · refine ⟨?_, ?_, ?_, ?_, ?_, ?_, hframe⟩ <;> rw [hcode] <;> simp [codeIncomplete, hlt, hn, Instr.isReserved]
  · obtain ⟨hdecode, hmask⟩ := Instr.ne_of_isReserved hi
    refine ⟨?_, ?_, ?_, ?_, ?_, ?_, hframe⟩ <;> rw [hcode] <;> simp [codeBadCmd, hdecode, hmask, hn, hi]
  · refine ⟨?_, ?_, ?_, ?_, ?_, ?_, hframe⟩ <;> rw [hcode] <;> simp [codeRange, hrange, hn, Instr.isReserved]
  · refine ⟨?_, ?_, ?_, ?_, ?_, ?_, hframe⟩ <;> rw [hcode] <;> simp [codeOk, hdecode, hmask, hn, hi]

/-- Settles O29: what each of the four writes is not what it reads. -/
theorem commandsButMaskAreIdempotent : Obligations.CommandsButMaskAreIdempotent := by
  unfold Obligations.CommandsButMaskAreIdempotent
  intro i s t hi ht
  rcases hi with rfl | rfl | rfl | rfl
  · exact exec_nop t
  · rw [exec_decode, Host.Outcome.next.injEq] at ht
    rw [← ht, exec_decode, decodeCmd_decodeCmd]
  · rw [exec_encode, Host.Outcome.next.injEq] at ht
    rw [← ht, exec_encode, encodeCmd_encodeCmd]
  · rw [exec_sreset, Host.Outcome.next.injEq] at ht
    rw [← ht, exec_sreset, clearAllButPbuf_clearAllButPbuf]

/-- Settles O40: MASK reads its range, PBUF, the key and the phase. -/
theorem maskDoesNotReadTheHeader : Obligations.MaskDoesNotReadTheHeader := by
  unfold Obligations.MaskDoesNotReadTheHeader
  intro s t fin masked op len hl lc ht
  rw [exec_mask, Host.Outcome.next.injEq] at ht
  rw [exec_mask, maskCmd_with_header, ht]

/-- Settles O43: the key is the header's last four bytes or 0, and the phase starts at 0. -/
theorem decodeThenMaskUnmasksThePayload : Obligations.DecodeThenMaskUnmasksThePayload := by
  unfold Obligations.DecodeThenMaskUnmasksThePayload
  intro s t u raw start count ht hcode hfit hu i hi
  rw [exec_decode, Host.Outcome.next.injEq] at ht
  subst ht
  obtain ⟨-, -, -, -, hcfg, -⟩ := decodeCmd_frame s
  rw [exec_mask, Host.Outcome.next.injEq] at hu
  rw [← hu, pbufByte_maskCmd (s := { decodeCmd s with pbuf := raw, pStart := start, pCount := count }) (hcfg ▸ hfit),
    maskByteAt_of_mem (by dsimp only; omega), Nat.add_sub_cancel_left, keyByte_decodeCmd hcode]
  rfl

end Sys2Proof.Machine
end

section
/-! PROOFS. Steps: the operation a step takes, the placed command word, reads, resets and the reserved commands
(spec/10_state.md R23, R24; spec/20_memory.md R58; spec/43_control.md R132; spec/70_reset_and_hazards.md R161, R162). -/
namespace Sys2Proof.Machine

/-- With all 32 bits a table word is the word itself. -/
theorem tableWord_toNat (w : Word) : tableWord 32 w.toNat = w := by
  rw [tableWord, Nat.mod_eq_of_lt w.isLt, BitVec.ofNat_toNat, BitVec.setWidth_eq]

/-- What the bus reads does not depend on the accesses to come. -/
theorem busRead_pending (s : State) (ops : List HostOp) (a : HAddr) :
    busRead { s with pending := ops } a = busRead s a := by
  simp only [busRead]
  cases target s.cfg a with
  | reg r => cases r <;> rfl
  | _ => rfl

/-- What a host operation does to the parameters and the host's side. -/
theorem performOp_host {op : HostOp} {s t : State} (ht : performOp op s = .next t) :
    t.pending = s.pending ∧ t.cfg = s.cfg ∧ (op ≠ .powerOnReset → t.powerOns = s.powerOns) ∧
      (∀ a, op = .read a → t.observed = busRead s a :: s.observed) ∧
      ((∀ a, op ≠ .read a) → t.observed = s.observed) := by
  rcases performOp_cases op s t ht with ⟨a, rfl, rfl⟩ | ⟨w, rfl, he⟩ | ⟨a, w, rfl, -, rfl⟩ | ⟨rfl, rfl⟩
  · refine ⟨rfl, rfl, fun _ => rfl, fun b hb => ?_, fun hne => absurd rfl (hne a)⟩
    rw [HostOp.read.inj hb]
  · obtain ⟨hcfg, hpowerOns, hpending, hobserved⟩ := sameHost_exec he
    exact ⟨hpending, hcfg, fun _ => hpowerOns, nofun, fun _ => hobserved⟩
  · obtain ⟨hcfg, hpowerOns, hpending, hobserved, -⟩ := busWrite_frame s a w
    exact ⟨hpending, hcfg, fun _ => hpowerOns, nofun, fun _ => hobserved⟩
  · exact ⟨rfl, rfl, fun hne => absurd rfl hne, nofun, fun _ => rfl⟩

/-! ### The statements -/

/-- Settles O9: the operation runs on the state without it, and reads its bus from the same registers and buffers. -/
theorem stepTakesExactlyTheNextOperation : Obligations.StepTakesExactlyTheNextOperation := by
  unfold Obligations.StepTakesExactlyTheNextOperation
  intro s t op rest hp ht
  rw [step_of_pending hp] at ht
  obtain ⟨hpending, hcfg, hpowerOns, hread, hother⟩ := performOp_host ht
  refine ⟨hpending, hcfg, hpowerOns, fun a ha => ?_, hother⟩
  rw [hread a ha, busRead_pending]

/-- Settles O6: the placed write is the next operation, and taking it leaves the state as it was. -/
theorem placedCommandWordRunsNext : Obligations.PlacedCommandWordRunsNext := by
  unfold Obligations.PlacedCommandWordRunsNext
  intro s w
  have hp : (s.withFetchWord 32 w.toNat).pending = .write cmdAddr w :: s.pending := by
    rw [State.withFetchWord, tableWord_toNat]
  rw [step_of_pending hp, performOp_write_cmd]
  rfl

/-- Settles O7: `step` has a clause of its own for it. -/
theorem idleStepChangesNothing : Obligations.IdleStepChangesNothing := by
  unfold Obligations.IdleStepChangesNothing
  intro s hp
  simp only [step, hp]

/-- Settles O50: a read adds to the observations, and nothing more. -/
theorem readsHaveNoSideEffect : Obligations.ReadsHaveNoSideEffect := by
  unfold Obligations.ReadsHaveNoSideEffect
  intro s a rest hp
  rw [step_of_pending hp, performOp, busRead_pending]

/-- Settles O15: the reset is `clearAllButPbuf` with no PBUF byte written and the next draw. -/
theorem powerOnResetStep : Obligations.PowerOnResetStep := by
  unfold Obligations.PowerOnResetStep
  intro s rest hp
  refine ⟨powerOnReset { s with pending := rest }, ?_, ?_, rfl, rfl, rfl, fun _ => rfl⟩
  · rw [step_of_pending hp, performOp_powerOnReset]
  · exact registersAtReset_clearAllButPbuf_with s [] s.cfg (s.powerOns + 1) rest s.observed

/-- Settles O16: both are `clearAllButPbuf`, and the power-on reset also forgets PBUF. -/
theorem sresetDiffersFromPowerOnOnlyInPbuf : Obligations.SresetDiffersFromPowerOnOnlyInPbuf := by
  unfold Obligations.SresetDiffersFromPowerOnOnlyInPbuf
  exact fun s => ⟨_, _, performOp_powerOnReset s, exec_sreset s, rfl, samePbuf_clearAllButPbuf s⟩

/-- Settles O20: each of the five is `status(BAD_CMD, 0)`. -/
theorem reservedCommandsFrame : Obligations.ReservedCommandsFrame := by
  unfold Obligations.ReservedCommandsFrame
  intro lo b op rsvd i s hi
  have hres : i.isReserved = true := by rcases hi with rfl | rfl | rfl | rfl | rfl <;> rfl
  exact ⟨_, exec_of_isReserved i s hres, rfl, rfl, rfl, ⟨rfl, rfl, rfl, rfl, rfl⟩, ⟨rfl, rfl⟩, rfl, ⟨rfl, rfl⟩,
    ⟨rfl, rfl⟩, ⟨rfl, rfl⟩, samePbuf_setStatus codeBadCmd 0 s, ⟨rfl, rfl, rfl, rfl⟩⟩

end Sys2Proof.Machine
end

section
/-! PROOFS. The host bus by register: what each register reads, which writes store nothing, what the others store, and
writes in either order (spec/10_state.md sections 2 to 6; spec/20_memory.md section 1;
spec/70_reset_and_hazards.md section 2). -/
namespace Sys2Proof.Machine

/-! ### Fields as numbers -/

theorem toNat_ofBool_eq_ite (b : Bool) : (BitVec.ofBool b).toNat = if b then 1 else 0 := by
  cases b <;> rfl

/-- Reserved bits above a field add nothing to it (R53). -/
theorem toNat_zero_append {m n : Nat} (b : BitVec n) : (0#m ++ b).toNat = b.toNat := by
  rw [toNat_append_eq_add, BitVec.toNat_ofNat, Nat.zero_mod, Nat.mul_zero, Nat.zero_add]

/-- STATUS as a number (R25). -/
theorem toNat_statusWord (st : Status) :
    (Status.word st).toNat = st.code.toNat + 2 ^ 8 * st.need.toNat + 2 ^ 16 * (if st.flags.nonmin then 1 else 0)
      + 2 ^ 17 * (if st.flags.lenMsb then 1 else 0) + 2 ^ 18 * (if st.flags.opcUnknown then 1 else 0)
      + 2 ^ 19 * (if st.flags.opcControl then 1 else 0) := by
  simp only [Status.word, toNat_append_eq_add, toNat_ofBool_eq_ite, BitVec.toNat_ofNat]
  omega

/-! ### Writes -/

/-- A host write to a register other than CMD stores in it. -/
theorem performOp_write_reg (s : State) {a : HAddr} (w : Word) (b : Nat) (r : Reg) (ha : byteAddr a = b)
    (hr : regAt b = some r) (hcmd : r ≠ .cmd) : performOp (.write a w) s = .next (writeReg s w r) :=
  performOp_write s a w _ (target_of_regAt s.cfg a b r ha hr) (fun he => hcmd (Target.reg.inj he))

/-- Each half of CONTENT_LEN keeps the other (R29). -/
theorem writeReg_lenLo_lenHi (s : State) (v w : Word) :
    writeReg (writeReg s v .lenLo) w .lenHi = writeReg (writeReg s w .lenHi) v .lenLo := by
  simp only [writeReg, BitVec.extractLsb'_append_eq_left, BitVec.extractLsb'_append_eq_right]

/-- Stores to different registers can be made in either order: each writes fields of its own. -/
theorem writeReg_comm (s : State) (v w : Word) {r r' : Reg} (h : r ≠ r') :
    writeReg (writeReg s v r) w r' = writeReg (writeReg s w r') v r := by
  cases r with
  | id | cfg | cmd | status | hdrInfo | obufLen => rfl
  | lenLo =>
    cases r' with
    | lenLo => exact absurd rfl h
    | lenHi => exact writeReg_lenLo_lenHi s v w
    | _ => rfl
  | lenHi =>
    cases r' with
    | lenHi => exact absurd rfl h
    | lenLo => exact (writeReg_lenLo_lenHi s w v).symm
    | _ => rfl
  | _ => cases r' <;> simp_all [writeReg]

/-- A store to a register commutes with a store to a window. -/
theorem writeReg_writeTarget_comm (s : State) (v w : Word) (r : Reg) {g : Target} (h : ∀ r', g ≠ .reg r') :
    writeTarget (writeReg s v r) w g = writeReg (writeTarget s w g) v r := by
  cases g with
  | reg r' => exact absurd rfl (h r')
  | _ => cases r <;> rfl

theorem writeTarget_ibuf_comm (s : State) (v w : Word) {j k : Nat} (hj : j < 4) (hk : k < 4) (hjk : j ≠ k) :
    writeTarget (writeTarget s v (.ibuf j)) w (.ibuf k) = writeTarget (writeTarget s w (.ibuf k)) v (.ibuf j) := by
  simp only [writeTarget, Buf.storeWord_comm s.ibuf j k hj hk hjk]

theorem writeTarget_pbuf_comm (s : State) (v w : Word) {j k : Nat} (hjk : j ≠ k) :
    writeTarget (writeTarget s v (.pbuf j)) w (.pbuf k) = writeTarget (writeTarget s w (.pbuf k)) v (.pbuf j) := by
  simp only [writeTarget, writePbuf]
  rw [Memory.insertList_comm]
  simp only [List.length_cons, List.length_nil]
  omega

/-- Stores to different addresses can be made in either order. -/
theorem busWrite_comm (s : State) (v w : Word) {a b : HAddr} (hab : a ≠ b) :
    busWrite (busWrite s a v) b w = busWrite (busWrite s b w) a v := by
  have hcfga : (busWrite s a v).cfg = s.cfg := (busWrite_frame s a v).1
  have hcfgb : (busWrite s b w).cfg = s.cfg := (busWrite_frame s b w).1
  suffices h : writeTarget (writeTarget s v (target s.cfg a)) w (target s.cfg b) =
      writeTarget (writeTarget s w (target s.cfg b)) v (target s.cfg a) by
    rw [busWrite, hcfga, busWrite.eq_def (busWrite s b w), hcfgb]
    exact h
  rcases target_ne_of_ne s.cfg a b hab with ha | hb | hne
  · rw [ha]
    rfl
  · rw [hb]
    rfl
  · rcases target_cases s.cfg a with ⟨r, ha⟩ | ⟨j, hj, ha⟩ | ⟨j, -, ha⟩ | ⟨j, -, ha⟩ | ha <;> rw [ha] at hne ⊢
    · cases hb : target s.cfg b with
      | reg r' => exact writeReg_comm s v w (fun hr => hne (by rw [hb, hr]))
      | _ => exact writeReg_writeTarget_comm s v w r nofun
    · rcases target_cases s.cfg b with ⟨r, hb⟩ | ⟨k, hk, hb⟩ | ⟨k, -, hb⟩ | ⟨k, -, hb⟩ | hb <;> rw [hb] at hne ⊢
      · exact (writeReg_writeTarget_comm s w v r (g := .ibuf j) nofun).symm
      · exact writeTarget_ibuf_comm s v w hj hk (fun hjk => hne (by rw [hjk]))
      all_goals rfl
    · rfl
    · cases hb : target s.cfg b with
      | reg r => exact (writeReg_writeTarget_comm s w v r (g := .pbuf j) nofun).symm
      | pbuf k => exact writeTarget_pbuf_comm s v w (fun hjk => hne (by rw [hb, hjk]))
      | _ => rfl
    · rfl

/-! ### The statements -/

/-- Settles O49: each address selects its register, and a register's word is the sum of its fields. -/
theorem registerReadValues : Obligations.RegisterReadValues := by
  unfold Obligations.RegisterReadValues
  intro s a bit v
  have hread (b : Nat) (r : Reg) (hr : regAt b = some r) (ha : byteAddr a = b) : busRead s a = readReg s r :=
    busRead_of_regAt s a b r ha hr
  refine ⟨fun ha => ?_, fun ha hc => ?_, fun ha => ?_, fun ha => ?_, fun ha => ?_, fun ha => ?_, fun ha => ?_,
    fun ha => ?_, hread 0x020 .maskKey rfl, fun ha => ?_, fun ha => ?_, fun ha => ?_, hread 0x030 .pStart rfl,
    hread 0x034 .pCount rfl⟩ <;> simp only [v, bit]
  · rw [hread 0x000 .id rfl ha]
    rfl
  · rw [hread 0x004 .cfg rfl ha, readReg, cfgWord_toNat s.cfg hc]
    rfl
  · rw [hread 0x008 .cmd rfl ha]
    rfl
  · rw [hread 0x00C .status rfl ha]
    exact toNat_statusWord s.status
  · rw [hread 0x010 .hdrCtrl rfl ha, readReg]
    simp only [toNat_append_eq_add, toNat_ofBool_eq_ite, BitVec.toNat_ofNat]
    omega
  · rw [hread 0x014 .hdrInfo rfl ha, readReg]
    simp only [toNat_append_eq_add, BitVec.toNat_ofNat]
    omega
  · rw [hread 0x018 .lenLo rfl ha, readReg, BitVec.extractLsb'_toNat, Nat.shiftRight_zero]
  · rw [hread 0x01C .lenHi rfl ha, readReg, BitVec.extractLsb'_toNat, Nat.shiftRight_eq_div_pow]
    omega
  · rw [hread 0x024 .maskPhase rfl ha, readReg, toNat_zero_append]
  · rw [hread 0x028 .ibufAvail rfl ha, readReg, toNat_zero_append]
  · rw [hread 0x02C .obufLen rfl ha, readReg, toNat_zero_append]

/-- Settles O52: none of these addresses selects a target that a write stores in. -/
theorem readOnlyWritesChangeNothing : Obligations.ReadOnlyWritesChangeNothing := by
  unfold Obligations.ReadOnlyWritesChangeNothing
  rintro s a w (ha | ha | ha | ha | ha | ⟨hlo, hhi⟩)
  · exact performOp_write_reg s w 0x000 .id ha rfl (by decide)
  · exact performOp_write_reg s w 0x004 .cfg ha rfl (by decide)
  · exact performOp_write_reg s w 0x00C .status ha rfl (by decide)
  · exact performOp_write_reg s w 0x014 .hdrInfo ha rfl (by decide)
  · exact performOp_write_reg s w 0x02C .obufLen ha rfl (by decide)
  · obtain ⟨k, hk⟩ := exists_word_of_le_byteAddr a 0x050 (by decide) hlo
    exact (obufWindowLanes s a w k (by omega) hk).2

/-- Settles O53: each address selects its register, which stores the fields of the word. -/
theorem registerWritesStoreTheirFields : Obligations.RegisterWritesStoreTheirFields := by
  unfold Obligations.RegisterWritesStoreTheirFields
  intro s a w
  refine ⟨fun ha => performOp_write_reg s w 0x010 .hdrCtrl ha rfl (by decide),
    fun ha => ⟨_, performOp_write_reg s w 0x018 .lenLo ha rfl (by decide), rfl, ?_⟩,
    fun ha => ⟨_, performOp_write_reg s w 0x01C .lenHi ha rfl (by decide), rfl, ?_⟩,
    fun ha => performOp_write_reg s w 0x020 .maskKey ha rfl (by decide),
    fun ha => ⟨_, performOp_write_reg s w 0x024 .maskPhase ha rfl (by decide), rfl, ?_⟩,
    fun ha => performOp_write_reg s w 0x030 .pStart ha rfl (by decide),
    fun ha => performOp_write_reg s w 0x034 .pCount ha rfl (by decide)⟩ <;>
    simp only [writeReg, toNat_append_eq_add, BitVec.extractLsb'_toNat, Nat.shiftRight_eq_div_pow] <;> omega

/-- Settles O59: both writes store, and the stores commute. -/
theorem writesBeforeACommandCommute : Obligations.WritesBeforeACommandCommute := by
  unfold Obligations.WritesBeforeACommandCommute
  intro s t u a b v w hab ha hb ht hu
  have hstore (s : State) (w : Word) {a : HAddr} (ha : a ≠ cmdAddr) :
      performOp (.write a w) s = .next (busWrite s a w) :=
    performOp_write s a w _ rfl (mt (target_eq_cmd s.cfg a).mp ha)
  rw [hstore s v ha, Host.Outcome.next.injEq] at ht
  rw [hstore t w hb, Host.Outcome.next.injEq] at hu
  refine ⟨_, hstore s w hb, ?_⟩
  rw [hstore _ v ha, ← hu, ← ht, busWrite_comm s v w hab]

end Sys2Proof.Machine
end
